-- ==== Sys2Proof/Word.lean ====
section
/-! DEFINITION. The two widths the datapath moves (spec 00_scope.md R6, R9): all values are unsigned. -/
namespace Sys2Proof

/-- A 32-bit unsigned word; `+` wraps modulo 2^32 (00_scope.md R9, 40_compression_core.md R101). -/
abbrev Word := BitVec 32

/-- An 8-bit unsigned byte (00_scope.md R6, 41_context_commands.md R133). -/
abbrev Byte := BitVec 8

end Sys2Proof
end

