-- ==== Sys2Proof/Syntax.lean ====
section
/-! DEFINITION. The instructions: one constructor per row of opcode_table.json, five host commands (format CMD16,
30_encoding.md R72) and five micro-operations of the Compression Core (format USEQ, R76). -/
namespace Sys2Proof

/-- The ten instructions. Operands are carried as the encoded field holds them; `Instr.WellFormed` gives their ranges. -/
inductive Instr where
  /-- INIT: a fresh context (41_context_commands.md R121). -/
  | init
  /-- ABSORB b: one message byte (R122). -/
  | absorb (b : Byte)
  /-- FINAL: the padding sequence and the end of the message (R123). -/
  | final
  /-- RDD i: read digest byte i (42_readout_commands.md R150). -/
  | rdd (i : Byte)
  /-- RDS sel: read status byte sel (R151). -/
  | rds (sel : Byte)
  /-- uLOAD j: word j of the block into W (40_compression_core.md R94). -/
  | uload (j : BitVec 4)
  /-- uEXP t: word t of the expansion (R95). -/
  | uexp (t : BitVec 7)
  /-- uSEED: working registers from the chaining value (R96). -/
  | useed
  /-- uROUND t: one round (R97). -/
  | uround (t : BitVec 7)
  /-- uFOLD: the working registers into the chaining value (R98). -/
  | ufold
deriving DecidableEq, Repr

/-- The two word formats: a 16-bit command word (30_encoding.md R70), and the 10-bit sequencer position
`{PHASE[2:0], T[6:0]}` (R76). -/
inductive CodeWord where
  | cmd16 (w : BitVec 16)
  | useq (p : BitVec 10)
deriving DecidableEq, Repr

end Sys2Proof
end

