-- ==== Sys2Proof/WellFormed.lean ====
section
/-! DEFINITION. The operand ranges of the opcode table (30_encoding.md R72, R76). -/
namespace Sys2Proof

/-- RDD takes 0..19, RDS 0..9 (R72), uEXP 16..79, uROUND 0..79 (R76); every other operand field is full. -/
def Instr.wf : Instr → Bool
  | .init => true
  | .absorb _ => true
  | .final => true
  | .rdd i => decide (i.toNat ≤ 19)
  | .rds sel => decide (sel.toNat ≤ 9)
  | .uload _ => true
  | .uexp t => decide (16 ≤ t.toNat ∧ t.toNat ≤ 79)
  | .useed => true
  | .uround t => decide (t.toNat ≤ 79)
  | .ufold => true

/-- The instruction has an encoding. -/
abbrev Instr.WellFormed (i : Instr) : Prop := i.wf = true

end Sys2Proof
end

