-- ==== Sys2Proof/Decode.lean ====
section
/-! DEFINITION. The decoder of both formats, total, refusing by name, and the encoder. The decoder is a pure
function of the word (30_encoding.md R79). -/
namespace Sys2Proof

/-- Why a word decodes to no instruction (30_encoding.md R73 for commands, R76 for sequencer positions). -/
inductive IllegalWord where
  /-- `op` is 0x0 or 0x6..0xF. -/
  | reservedOp
  /-- `z` is not 0b0000. -/
  | nonzeroZ
  /-- INIT or FINAL with `imm8` not 0x00. -/
  | nonzeroImm
  /-- RDD with an index above 19. -/
  | digestIndex
  /-- RDS with a selector above 9. -/
  | statusSelector
  /-- The idle position (IDLE, 0): no operation. -/
  | idlePosition
  /-- A sequencer position outside the table. -/
  | reservedPosition
deriving DecidableEq, Repr

/-- The fields of `CMD16` (30_encoding.md R70). -/
def cmdOp (w : BitVec 16) : BitVec 4 := w.extractLsb' 12 4
def cmdZ (w : BitVec 16) : BitVec 4 := w.extractLsb' 8 4
def cmdImm8 (w : BitVec 16) : Byte := w.extractLsb' 0 8

/-- The command decoder: the opcode map R72 with the illegal words of R73. -/
def decodeCmd16 (w : BitVec 16) : Except IllegalWord Instr :=
  if cmdOp w = 0x0 ∨ 0x6 ≤ cmdOp w then .error .reservedOp
  else if cmdZ w ≠ 0 then .error .nonzeroZ
  else if cmdOp w = 0x1 then
    if cmdImm8 w = 0 then .ok .init else .error .nonzeroImm
  else if cmdOp w = 0x2 then .ok (.absorb (cmdImm8 w))
  else if cmdOp w = 0x3 then
    if cmdImm8 w = 0 then .ok .final else .error .nonzeroImm
  else if cmdOp w = 0x4 then
    if (cmdImm8 w).toNat ≤ 19 then .ok (.rdd (cmdImm8 w)) else .error .digestIndex
  else
    if (cmdImm8 w).toNat ≤ 9 then .ok (.rds (cmdImm8 w)) else .error .statusSelector

/-- The fields of `USEQ` (30_encoding.md R76). -/
def seqPhase (p : BitVec 10) : BitVec 3 := p.extractLsb' 7 3
def seqT (p : BitVec 10) : BitVec 7 := p.extractLsb' 0 7

/-- The micro-sequencer's decoder: the table of R76. -/
def decodeUseq (p : BitVec 10) : Except IllegalWord Instr :=
  if seqPhase p = 0 ∧ seqT p = 0 then .error .idlePosition
  else if seqPhase p = 1 ∧ (seqT p).toNat ≤ 15 then .ok (.uload ((seqT p).extractLsb' 0 4))
  else if seqPhase p = 2 ∧ 16 ≤ (seqT p).toNat ∧ (seqT p).toNat ≤ 79 then .ok (.uexp (seqT p))
  else if seqPhase p = 3 ∧ seqT p = 0 then .ok .useed
  else if seqPhase p = 4 ∧ (seqT p).toNat ≤ 79 then .ok (.uround (seqT p))
  else if seqPhase p = 5 ∧ seqT p = 0 then .ok .ufold
  else .error .reservedPosition

/-- The decoder of either format. -/
def decode : CodeWord → Except IllegalWord Instr
  | .cmd16 w => decodeCmd16 w
  | .useq p => decodeUseq p

/-- A command word from its fields, `z` being zero (30_encoding.md R70). -/
def cmdWord (op : BitVec 4) (imm8 : Byte) : BitVec 16 := op ++ (0 : BitVec 4) ++ imm8

/-- A sequencer position from its fields (30_encoding.md R76). -/
def seqWord (phase : BitVec 3) (t : BitVec 7) : BitVec 10 := phase ++ t

/-- The word of an instruction, from the tables R72 and R76. -/
def encode : Instr → CodeWord
  | .init => .cmd16 (cmdWord 0x1 0)
  | .absorb b => .cmd16 (cmdWord 0x2 b)
  | .final => .cmd16 (cmdWord 0x3 0)
  | .rdd i => .cmd16 (cmdWord 0x4 i)
  | .rds sel => .cmd16 (cmdWord 0x5 sel)
  | .uload j => .useq (seqWord 1 (j.setWidth 7))
  | .uexp t => .useq (seqWord 2 t)
  | .useed => .useq (seqWord 3 0)
  | .uround t => .useq (seqWord 4 t)
  | .ufold => .useq (seqWord 5 0)

/-- Which of the two formats a word of opcode_table.json's numbering is (log 12): a row of 10 bits is a sequencer
position; in 16 bits, a legal command word is a command, and a word below 2^10 that is a position of the table is that
position (`op` is then 0, so it is no command); anything else of 16 bits is a command word. -/
def tableWord (nbits w : Nat) : Option CodeWord :=
  if 16 < nbits ∨ 2 ^ 16 ≤ w then none
  else if nbits = 10 then
    if w < 2 ^ 10 then some (.useq (BitVec.ofNat 10 w)) else none
  else
    match decodeCmd16 (BitVec.ofNat 16 w) with
    | .ok _ => some (.cmd16 (BitVec.ofNat 16 w))
    | .error _ =>
      if w < 2 ^ 10 then
        match decodeUseq (BitVec.ofNat 10 w) with
        | .ok _ => some (.useq (BitVec.ofNat 10 w))
        | .error _ => some (.cmd16 (BitVec.ofNat 16 w))
      else some (.cmd16 (BitVec.ofNat 16 w))

/-- The instruction the decoder reads from a word of opcode_table.json's numbering. -/
def decodeTableWord (nbits w : Nat) : Option Instr :=
  match tableWord nbits w with
  | none => none
  | some c =>
    match decode c with
    | .ok i => some i
    | .error _ => none

end Sys2Proof
end

