-- ==== Sys2Proof/Config.lean ====
section
/-! DEFINITION. What is fixed for the machine (10_state.md R35): the initial chaining words, and the FREE VALUES
for the contents the spec leaves unspecified after reset (10_state.md R36, 93_implementation_defined.md U7: "an option
type or a draw", "not zero"). A free value has no body: nothing can evaluate it or prove a value of it (logs 4, 5, 6). -/
namespace Sys2Proof.Config

/-- `IV[0..4]`, the initial chaining words, read by INIT and by reset (10_state.md R25). -/
def iv : Vector Word 5 := #v[0x67452301, 0xEFCDAB89, 0x98BADCFE, 0x10325476, 0xC3D2E1F0]

/-- Free value: `W[i]` after the reset numbered by the first argument (10_state.md R36; log 4, DESIGN CHOICE). -/
opaque resetW : Nat → Nat → Word

/-- Free value: working register `A`, `B`, `C`, `D`, `E` (second argument 0 to 4) after that reset
(10_state.md R36; log 4, DESIGN CHOICE). -/
opaque resetWorking : Nat → Nat → Word

/-- Free value: `TEMP` after that reset (10_state.md R36; log 4, DESIGN CHOICE). -/
opaque resetTemp : Nat → Word

/-- Free value: what `BUF[i]` (second argument) reads as after that reset while nothing has written it
(10_state.md R36; log 5, DESIGN CHOICE). -/
opaque unwrittenByte : Nat → Nat → Byte

end Sys2Proof.Config
end

