-- ==== Sys2Proof/Machine/State.lean ====
section
/-! DEFINITION. The state as plain data: every register and buffer of 10_state.md R20, the two ports of
30_encoding.md R80, and the model's own reset count; the reasons a step can stop; the state after reset (R36). -/
namespace Sys2Proof.Machine

/-- `ST`, the lifecycle state (10_state.md R29); 0b11 is not representable (log 11). -/
inductive Lifecycle where
  | empty
  | accumulating
  | finalized
deriving DecidableEq, Repr

/-- `PHASE`, the micro-sequencer's phase (10_state.md R32); codes 6 and 7 are not representable (log 11). -/
inductive Phase where
  | idle
  | load
  | expand
  | seed
  | round
  | fold
deriving DecidableEq, Repr

/-- The working registers `A`, `B`, `C`, `D`, `E` (10_state.md R22). -/
structure Working where
  a : Word
  b : Word
  c : Word
  d : Word
  e : Word
deriving DecidableEq, Repr

/-- `BUF` as the cells written since the last reset, addresses strictly rising (`Memory.wf`); a cell not listed
holds no value of the model's (10_state.md R36; log 5). -/
abbrev Memory := List Host.Cell

/-- One thing the host does at the ports (30_encoding.md R80; log 2). -/
inductive HostInput where
  /-- The host presents a command word on `CMD` and holds it until it is accepted. -/
  | command (word : BitVec 16)
  /-- The host takes the response (`RSP_READY`). -/
  | takeResponse
  /-- `RST` is asserted (70_reset_and_hazards.md R190). -/
  | reset
deriving DecidableEq, Repr

/-- The whole state of one SHA1-CORE instance. -/
structure State where
  /-- `H[0..4]`, the chaining value (10_state.md R21). -/
  h : Vector Word 5
  /-- `BUF[0..63]`, the input block buffer (R26). -/
  buf : Memory
  /-- `BUFCNT`, the fill count (R27). -/
  bufcnt : BitVec 7
  /-- `LEN`, the byte counter (R28). -/
  len : BitVec 64
  /-- `ST`, the lifecycle state (R29). -/
  st : Lifecycle
  /-- `UERR`, sticky (R30). -/
  uerr : Bool
  /-- `IERR`, sticky (R30). -/
  ierr : Bool
  /-- `A`..`E` (R22). -/
  wk : Working
  /-- `TEMP` (R22). -/
  temp : Word
  /-- `W[0..79]`, the word-expansion table (R23). -/
  w : Vector Word 80
  /-- `PHASE` (R32). -/
  phase : Phase
  /-- `T` (R32). -/
  t : BitVec 7
  /-- The command port and `RST`: what the host does next, oldest first (30_encoding.md R80; log 2). -/
  inbox : List HostInput
  /-- The response port: the response word presented and not yet taken (R80, R74). -/
  rsp : Option (BitVec 16)
  /-- The model's own field: how often `RST` was applied, the argument of the free values (log 6). -/
  epoch : Nat
deriving DecidableEq, Repr

/-- Why the machine stops. Both reasons mark states the rules never reach; 93_implementation_defined.md U6 says "if
represented, `stuck`". Safe: a stop where the chip is never found. -/
inductive Fault where
  /-- Raised by ABSORB and FINAL, when allowed, with `BUFCNT` of 64 or more: the precondition of `feed` fails
  (41_context_commands.md R120; log 9). Safe. -/
  | bufcntRange
  /-- Raised by the step at a micro-sequencer position outside the table, and by uEXP and uROUND with an index outside
  their range (30_encoding.md R76; log 10). Safe. -/
  | seqPosition
deriving DecidableEq, Repr

/-- Why an instruction has no meaning. -/
inductive Refusal where
  /-- Raised by `exec` alone, for an instruction with no meaning yet. Safe. No arm raises it now. -/
  | notModelled (mnemonic : String)
deriving DecidableEq, Repr

/-- The registers right after the reset numbered `epoch` (10_state.md R36), no input waiting, no response pending. -/
def State.afterReset (epoch : Nat) : State where
  h := Config.iv
  buf := []
  bufcnt := 0
  len := 0
  st := .empty
  uerr := false
  ierr := false
  wk :=
    { a := Config.resetWorking epoch 0, b := Config.resetWorking epoch 1, c := Config.resetWorking epoch 2,
      d := Config.resetWorking epoch 3, e := Config.resetWorking epoch 4 }
  temp := Config.resetTemp epoch
  w := Vector.ofFn fun i => Config.resetW epoch i.val
  phase := .idle
  t := 0
  inbox := []
  rsp := none
  epoch := epoch

/-- The machine right after the first reset. -/
def State.reset : State := State.afterReset 0

end Sys2Proof.Machine
end

