-- ==== Sys2Proof/Machine/Arith.lean ====
section
/-! DEFINITION. The primitives of the Compression Core (40_compression_core.md R91 to R93) and the byte order of
20_memory.md R52. -/
namespace Sys2Proof.Machine

/-- `rotl32(x, n)` for `0 < n < 32` (40_compression_core.md R91). -/
def rotl32 (x : Word) (n : Nat) : Word := (x <<< n) ||| (x >>> (32 - n))

/-- Ch (40_compression_core.md R92, `t` 0..19). -/
def ch (b c d : Word) : Word := (b &&& c) ||| (~~~b &&& d)

/-- Parity (R92, `t` 20..39 and 60..79). -/
def parity (b c d : Word) : Word := b ^^^ c ^^^ d

/-- Maj (R92, `t` 40..59). -/
def maj (b c d : Word) : Word := (b &&& c) ||| (b &&& d) ||| (c &&& d)

/-- `f(t, b, c, d)`, the closed switch over the four ranges of 20 rounds (R92). -/
def roundFn (t : Nat) (b c d : Word) : Word :=
  if t < 20 then ch b c d
  else if t < 40 then parity b c d
  else if t < 60 then maj b c d
  else parity b c d

/-- The table `K[0..3]` (10_state.md R24). -/
def kTable : Vector Word 4 := #v[0x5A827999, 0x6ED9EBA1, 0x8F1BBCDC, 0xCA62C1D6]

/-- `K(t) = K[t div 20]`, for `t` in 0..79 (40_compression_core.md R93). -/
def roundConst (t : Nat) : Word :=
  if t < 20 then kTable[0]
  else if t < 40 then kTable[1]
  else if t < 60 then kTable[2]
  else kTable[3]

/-- `be32(b0, b1, b2, b3)`, `b0` most significant (00_scope.md R10). -/
def be32 (b0 b1 b2 b3 : Byte) : Word := b0 ++ b1 ++ b2 ++ b3

/-- `byte_k(v, n)`, byte `k` of the `n`-byte big-endian serialisation of `v` (00_scope.md R10). -/
def byteOf {m : Nat} (v : BitVec m) (n k : Nat) : Byte := v.extractLsb' (8 * (n - 1 - k)) 8

/-- `W[i]` for `i` in 0..79, the only indices that occur (20_memory.md R61). -/
def wordAt (w : Vector Word 80) (i : Nat) : Word := if h : i < 80 then w[i] else 0

/-- Code of `ST` (10_state.md R29). -/
def Lifecycle.code : Lifecycle → BitVec 2
  | .empty => 0b00
  | .accumulating => 0b01
  | .finalized => 0b10

/-- Code of `PHASE` (10_state.md R32). -/
def Phase.code : Phase → BitVec 3
  | .idle => 0
  | .load => 1
  | .expand => 2
  | .seed => 3
  | .round => 4
  | .fold => 5

end Sys2Proof.Machine
end

