-- ==== Sys2Proof/Machine/Flags.lean ====
section
/-! DEFINITION. The two sticky flags (10_state.md R30), the STATUS byte that shows them (R31), and the status codes
of the response word (30_encoding.md R74, R75). There are no condition codes (R30). -/
namespace Sys2Proof.Machine

/-- `UERR <- 1` (10_state.md R30). -/
def State.setUerr (s : State) : State := { s with uerr := true }

/-- `IERR <- 1` (10_state.md R30). -/
def State.setIerr (s : State) : State := { s with ierr := true }

/-- `UERR <- 0; IERR <- 0`, done by INIT (41_context_commands.md R121). -/
def State.clearErrors (s : State) : State := { s with uerr := false, ierr := false }

/-- STATUS = `{0b0000, IERR, UERR, ST[1:0]}` (10_state.md R31). -/
def statusByte (s : State) : Byte :=
  (0 : BitVec 4) ++ BitVec.ofBool s.ierr ++ BitVec.ofBool s.uerr ++ s.st.code

/-- The status of a response (30_encoding.md R75); 0b11 is never produced and not representable. -/
inductive RspStatus where
  | ok
  | usage
  | illegal
deriving DecidableEq, Repr

/-- Its two bits (R75). -/
def RspStatus.code : RspStatus → BitVec 2
  | .ok => 0b00
  | .usage => 0b01
  | .illegal => 0b10

/-- `rsp(status, data)` = `{0b000000, status, data}` (30_encoding.md R74). -/
def rspWord (status : RspStatus) (data : Byte) : BitVec 16 := (0 : BitVec 6) ++ status.code ++ data

end Sys2Proof.Machine
end

