-- ==== Sys2Proof/Machine/Operands.lean ====
section
/-! DEFINITION. What the operand of each instruction names (30_encoding.md R71): the digest byte view of RDD, the
status space of RDS. The byte of ABSORB and the constants of the micro-operations stand for themselves. -/
namespace Sys2Proof.Machine

/-- `H[i]` for `i` in 0..4. -/
def chainWord (h : Vector Word 5) (i : Nat) : Word := if hi : i < 5 then h[i] else 0

/-- `DIG(i) = byte_(i mod 4)(H[i div 4], 4)`, `i` in 0..19 (20_memory.md R62). -/
def digestByte (h : Vector Word 5) (i : Nat) : Byte := byteOf (chainWord h (i / 4)) 4 (i % 4)

/-- The status space, `sel` in 0..9 (10_state.md R31, 42_readout_commands.md R151): STATUS, BUFCNT, LEN7..LEN0. -/
def statusAt (s : State) (sel : Nat) : Byte :=
  if sel = 0 then statusByte s
  else if sel = 1 then (0 : BitVec 1) ++ s.bufcnt
  else byteOf s.len 8 (sel - 2)

/-- The bit length `LBITS = (LEN × 8) mod 2^64` (10_state.md R28, 41_context_commands.md R125). -/
def lbits (len : BitVec 64) : BitVec 64 := len * 8

end Sys2Proof.Machine
end

