-- ==== Sys2Proof/Machine/Ops.lean ====
section
/-! DEFINITION. The operations every meaning is built from: the memory `BUF`, the response port, taking an
exception, the micro-sequencer position, reset. -/
namespace Sys2Proof.Machine

/-! The memory `BUF` (20_memory.md R50, R51). -/

/-- The canonical form: every address below 64, addresses strictly rising. A cell that is not listed has no value, so no
entry can equal it (log 5). -/
def Memory.wf (m : Memory) : Bool :=
  decide (m.Pairwise fun x y => x.1 < y.1) && m.all fun c => decide (c.1 < 64)

/-- The value written at address `a`, if one was written. -/
def Memory.lookup (a : Nat) : Memory → Option Byte
  | [] => none
  | (k, v) :: rest => if k = a then some v else Memory.lookup a rest

/-- The cells with `v` at address `a`, in canonical form. -/
def Memory.write (a : Nat) (v : Byte) : Memory → Memory
  | [] => [(a, v)]
  | (k, u) :: rest =>
    if a < k then (a, v) :: (k, u) :: rest
    else if a = k then (a, v) :: rest
    else (k, u) :: Memory.write a v rest

/-- Read of `BUF[a]`; a cell that nothing has written since reset reads as a free value (10_state.md R36; log 5). -/
def readBuf (s : State) (a : Nat) : Byte :=
  match Memory.lookup a s.buf with
  | some v => v
  | none => Config.unwrittenByte s.epoch a

/-- `MemWrite(BUF, a, 1, v)` for `a` in 0..63 (20_memory.md R51). -/
def writeBuf (s : State) (a : Nat) (v : Byte) : State := { s with buf := Memory.write a v s.buf }

/-- `MemRead(BUF, a, 4)`: four bytes, the first most significant (20_memory.md R51). -/
def readBuf4 (s : State) (a : Nat) : Word :=
  be32 (readBuf s a) (readBuf s (a + 1)) (readBuf s (a + 2)) (readBuf s (a + 3))

/-! The response port and the exceptions. -/

/-- Present the response `rsp(status, data)` (30_encoding.md R74, R80). -/
def respond (status : RspStatus) (data : Byte) (s : State) : State :=
  { s with rsp := some (rspWord status data) }

/-- The two exceptions (60_exceptions.md R160). -/
inductive Cause where
  | usageError
  | illegalCommand
deriving DecidableEq, Repr

/-- Taking an exception, exactly as 60_exceptions.md R163: its sticky flag and its response, nothing else. No handler
is entered and nothing is saved, so there is no return (R165): recovery is INIT or reset. -/
def raise (cause : Cause) (s : State) : State :=
  match cause with
  | .usageError => respond .usage 0 s.setUerr
  | .illegalCommand => respond .illegal 0 s.setIerr

/-! The ports. -/

/-- The first input is gone, and the host has taken the response that was waiting, if one was: what stands before a
command is accepted (30_encoding.md R80; log 3). -/
def State.takeInput (s : State) : State := { s with inbox := s.inbox.tail, rsp := none }

/-- `RST` (70_reset_and_hazards.md R190): every register as after reset, no response, the unspecified ones anew (log 6).
The inputs after the reset remain. -/
def applyReset (s : State) : State := { State.afterReset (s.epoch + 1) with inbox := s.inbox.tail }

/-! The micro-sequencer position (10_state.md R32). -/

/-- `{PHASE, T}` (30_encoding.md R76). -/
def State.position (s : State) : BitVec 10 := seqWord s.phase.code s.t

/-- `CMD_READY`: the sequencer is idle and no response waits (30_encoding.md R80). -/
def State.cmdReady (s : State) : Bool := decide (s.position = 0) && s.rsp.isNone

/-- `RSP_VALID` (30_encoding.md R80). -/
def State.rspValid (s : State) : Bool := s.rsp.isSome

/-- `(PHASE, T) <- (p, t)` (00_scope.md R10). -/
def State.setPosition (s : State) (pos : Phase × BitVec 7) : State := { s with phase := pos.1, t := pos.2 }

/-- The successor of each position, which depends on no data (40_compression_core.md R99). -/
def nextPosition (phase : Phase) (t : Nat) : Phase × BitVec 7 :=
  match phase with
  | .idle => (.idle, 0)
  | .load => if t < 15 then (.load, BitVec.ofNat 7 (t + 1)) else (.expand, 16)
  | .expand => if t < 79 then (.expand, BitVec.ofNat 7 (t + 1)) else (.seed, 0)
  | .seed => (.round, 0)
  | .round => if t < 79 then (.round, BitVec.ofNat 7 (t + 1)) else (.fold, 0)
  | .fold => (.idle, 0)

/-- The position at which a micro-operation stands (30_encoding.md R76); none for a command. -/
def positionOf : Instr → Option (Phase × BitVec 7)
  | .uload j => some (.load, j.setWidth 7)
  | .uexp t => some (.expand, t)
  | .useed => some (.seed, 0)
  | .uround t => some (.round, t)
  | .ufold => some (.fold, 0)
  | .init => none
  | .absorb _ => none
  | .final => none
  | .rdd _ => none
  | .rds _ => none

end Sys2Proof.Machine
end

