-- ==== Sys2Proof/Machine/Compress.lean ====
section
/-! DEFINITION. The Compression Core as functions (00_scope.md R11): the schedule, one round, `compress`
(40_compression_core.md R90), the padding sequence (41_context_commands.md R124) and the digest of a message as R131
states it. The meanings use the schedule's words and the round from here. -/
namespace Sys2Proof.Machine

/-- Byte `i` of a 64-byte block, `i` in 0..63. -/
def blockByte (block : Vector Byte 64) (i : Nat) : Byte := if h : i < 64 then block[i] else 0

/-- `be32(block[4j], .., block[4j+3])` (40_compression_core.md R90, R94). -/
def blockWord (block : Vector Byte 64) (j : Nat) : Word :=
  be32 (blockByte block (4 * j)) (blockByte block (4 * j + 1)) (blockByte block (4 * j + 2)) (blockByte block (4 * j + 3))

/-- The recurrence of the expansion at `t`, 16..79 (R95). -/
def expandWord (w : Vector Word 80) (t : Nat) : Word :=
  rotl32 (wordAt w (t - 3) ^^^ wordAt w (t - 8) ^^^ wordAt w (t - 14) ^^^ wordAt w (t - 16)) 1

/-- `schedule(block)`: the sixteen words of the block, then the recurrence for `t` = 16..79 in order (R94, R95). -/
def schedule (block : Vector Byte 64) : Vector Word 80 :=
  (List.range' 16 64).foldl (fun w t => w.setIfInBounds t (expandWord w t))
    ((List.range 16).foldl (fun w j => w.setIfInBounds j (blockWord block j)) (Vector.replicate 80 0))

/-- `temp` of round `t` (R97). -/
def roundTemp (t : Nat) (wt : Word) (k : Working) : Word :=
  rotl32 k.a 5 + roundFn t k.b k.c k.d + k.e + roundConst t + wt

/-- `round(t, w, (a,b,c,d,e))`, every right-hand side taken before the round (R97). -/
def roundStep (t : Nat) (wt : Word) (k : Working) : Working :=
  { a := roundTemp t wt k, b := k.a, c := rotl32 k.b 30, d := k.c, e := k.d }

/-- `A`..`E` from the chaining value (R96). -/
def seedWorking (h : Vector Word 5) : Working :=
  { a := h[0], b := h[1], c := h[2], d := h[3], e := h[4] }

/-- The chaining value plus the working registers, word by word modulo 2^32 (R98). -/
def foldChain (h : Vector Word 5) (k : Working) : Vector Word 5 :=
  #v[h[0] + k.a, h[1] + k.b, h[2] + k.c, h[3] + k.d, h[4] + k.e]

/-- The working registers after the 80 rounds (R90). -/
def allRounds (w : Vector Word 80) (k : Working) : Working :=
  (List.range 80).foldl (fun k t => roundStep t (wordAt w t) k) k

/-- `compress(H, block)` (R90). -/
def compress (h : Vector Word 5) (block : Vector Byte 64) : Vector Word 5 :=
  foldChain h (allRounds (schedule block) (seedWorking h))

/-- `padseq(n, LBITS)` (41_context_commands.md R124): 0x80, `z(n) = (55 - n) mod 64` zeros, the eight length bytes. -/
def padseq (n : Nat) (bits : BitVec 64) : List Byte :=
  [0x80] ++ List.replicate ((119 - n) % 64) 0 ++ (List.range 8).map (byteOf bits 8)

/-- Block `j` of a byte sequence, `j` counted from 0. -/
def blockOf (p : List Byte) (j : Nat) : Vector Byte 64 := Vector.ofFn fun i => p.getD (64 * j + i.val) 0

/-- The chaining value over the first blocks of a byte sequence, from `IV` (41_context_commands.md R131). -/
def chainOver (p : List Byte) : Nat → Vector Word 5
  | 0 => Config.iv
  | k + 1 => compress (chainOver p k) (blockOf p k)

/-- The message with its padding (R131). -/
def padded (m : List Byte) : List Byte := m ++ padseq (m.length % 64) (BitVec.ofNat 64 (8 * m.length))

/-- `X_k` of R131: the chaining value over all blocks of the padded message. -/
def sha1Chain (m : List Byte) : Vector Word 5 := chainOver (padded m) ((padded m).length / 64)

/-- `sha1(m)`: the twenty bytes, `DIG(0)` first (R131, 20_memory.md R62). -/
def sha1 (m : List Byte) : List Byte := (List.range 20).map (digestByte (sha1Chain m))

end Sys2Proof.Machine
end

