-- ==== Sys2Proof/Machine/MicroOps.lean ====
section
/-! DEFINITION. The five micro-operations (40_compression_core.md R94 to R98) and the sequence of one block (R99). Each
moves the sequencer to the successor of its own position. -/
namespace Sys2Proof.Machine

/-- uLOAD `j`: `W[j] <- MemRead(BUF, 4j, 4)` (R94). -/
def loadOp (j : Nat) (s : State) : State :=
  { s with w := s.w.setIfInBounds j (readBuf4 s (4 * j)) }.setPosition (nextPosition .load j)

/-- uEXP `t`, `t` = 16..79 (R95). -/
def expandOp (t : Nat) (s : State) : State :=
  { s with w := s.w.setIfInBounds t (expandWord s.w t) }.setPosition (nextPosition .expand t)

/-- uSEED (R96). -/
def seedOp (s : State) : State :=
  { s with wk := seedWorking s.h }.setPosition (nextPosition .seed 0)

/-- uROUND `t`, `t` = 0..79: `TEMP` is written, then the five registers from their values before the round (R97). -/
def roundOp (t : Nat) (s : State) : State :=
  { s with temp := roundTemp t (wordAt s.w t) s.wk, wk := roundStep t (wordAt s.w t) s.wk }.setPosition (nextPosition .round t)

/-- uFOLD (R98). -/
def foldOp (s : State) : State :=
  { s with h := foldChain s.h s.wk }.setPosition (nextPosition .fold 0)

/-- The meaning of uLOAD. -/
def execUload (j : BitVec 4) (s : State) : Host.Outcome State Fault Refusal := .next (loadOp j.toNat s)

/-- The meaning of uEXP; an index outside 16..79 is a position the table does not have (30_encoding.md R76, log 10). -/
def execUexp (t : BitVec 7) (s : State) : Host.Outcome State Fault Refusal :=
  if 16 ≤ t.toNat ∧ t.toNat ≤ 79 then .next (expandOp t.toNat s) else .fault .seqPosition

/-- The meaning of uSEED. -/
def execUseed (s : State) : Host.Outcome State Fault Refusal := .next (seedOp s)

/-- The meaning of uROUND; an index above 79 is a position the table does not have (30_encoding.md R76, log 10). -/
def execUround (t : BitVec 7) (s : State) : Host.Outcome State Fault Refusal :=
  if t.toNat ≤ 79 then .next (roundOp t.toNat s) else .fault .seqPosition

/-- The meaning of uFOLD. -/
def execUfold (s : State) : Host.Outcome State Fault Refusal := .next (foldOp s)

/-- One block, started at `(LOAD, 0)`: the 162 micro-operations in the order of R99, back at `(IDLE, 0)`. -/
def runBlock (s : State) : State :=
  let loaded := (List.range 16).foldl (fun s j => loadOp j s) (s.setPosition (.load, 0))
  let expanded := (List.range' 16 64).foldl (fun s t => expandOp t s) loaded
  let rounded := (List.range 80).foldl (fun s t => roundOp t s) (seedOp expanded)
  foldOp rounded

end Sys2Proof.Machine
end

