-- ==== Sys2Proof/Machine/Context.lean ====
section
/-! DEFINITION. The Streaming Digest Context: `feed` (41_context_commands.md R120) and the meanings of INIT, ABSORB
and FINAL (R121 to R123). -/
namespace Sys2Proof.Machine

/-- The precondition of `feed`, `0 <= BUFCNT <= 63` (R120). -/
def State.canFeed (s : State) : Bool := decide (s.bufcnt.toNat ≤ 63)

/-- The first two lines of `feed`: the byte into `BUF[BUFCNT]`, the count up by one (R120). -/
def storeByte (b : Byte) (s : State) : State :=
  { writeBuf s s.bufcnt.toNat b with bufcnt := s.bufcnt + 1 }

/-- `feed(b)` where its precondition holds: when the 64th byte arrives the block is compressed and the count
drained; the bytes of `BUF` stay (R120). -/
def feed (b : Byte) (s : State) : State :=
  if (storeByte b s).bufcnt = 64 then { runBlock (storeByte b s) with bufcnt := 0 } else storeByte b s

/-- `while BUFCNT != 56: feed(0x00)` (R123), at most `fuel` times; the loop ends within 63 (R123). -/
def feedZeros : Nat → State → State
  | 0, s => s
  | fuel + 1, s => if s.bufcnt = 56 then s else feedZeros fuel (feed 0x00 s)

/-- The bytes of a list fed in order. -/
def feedAll (bytes : List Byte) (s : State) : State := bytes.foldl (fun s b => feed b s) s

/-- The padding-sequence generator: 0x80, zeros until the count is 56, the eight bytes of `LBITS`, most significant
first (R123). -/
def feedPadding (s : State) : State :=
  feedAll ((List.range 8).map (byteOf (lbits s.len) 8)) (feedZeros 64 (feed 0x80 s))

/-- INIT (R121): a fresh context; `BUF`, `W`, `A`..`E` keep what they hold. -/
def execInit (s : State) : Host.Outcome State Fault Refusal :=
  .next (respond .ok 0 { s.clearErrors with h := Config.iv, bufcnt := 0, len := 0, st := .empty })

/-- ABSORB `b` (R122). -/
def execAbsorb (b : Byte) (s : State) : Host.Outcome State Fault Refusal :=
  if s.st = .finalized then .next (raise .usageError s)
  else if s.canFeed then .next (respond .ok 0 { feed b s with len := s.len + 1, st := .accumulating })
  else .fault .bufcntRange

/-- FINAL (R123). `LEN` is not written. -/
def execFinal (s : State) : Host.Outcome State Fault Refusal :=
  if s.st = .finalized then .next (raise .usageError s)
  else if s.canFeed then .next (respond .ok 0 { feedPadding s with st := .finalized })
  else .fault .bufcntRange

end Sys2Proof.Machine
end

