-- ==== Sys2Proof/Machine/ReadOut.lean ====
section
/-! DEFINITION. The read-out commands (42_readout_commands.md). -/
namespace Sys2Proof.Machine

/-- RDD `i` (R150). An index above 19 is an illegal word in every state, before the state test (60_exceptions.md R162,
R164; log 14). -/
def execRdd (i : Byte) (s : State) : Host.Outcome State Fault Refusal :=
  if 19 < i.toNat then .next (raise .illegalCommand s)
  else if s.st = .finalized then .next (respond .ok (digestByte s.h i.toNat) s)
  else .next (raise .usageError s)

/-- RDS `sel` (R151): never a UsageError, and reading STATUS clears nothing. A selector above 9 is an illegal word
(60_exceptions.md R162; log 14). -/
def execRds (sel : Byte) (s : State) : Host.Outcome State Fault Refusal :=
  if 9 < sel.toNat then .next (raise .illegalCommand s)
  else .next (respond .ok (statusAt s sel.toNat) s)

end Sys2Proof.Machine
end

