-- ==== Sys2Proof/Machine/Dispatch.lean ====
section
/-! DEFINITION. One arm per instruction. -/
namespace Sys2Proof.Machine

def exec (i : Instr) (s : State) : Host.Outcome State Fault Refusal :=
  match i with
  | .init => Sys2Proof.Machine.execInit s
  | .absorb b => Sys2Proof.Machine.execAbsorb b s
  | .final => Sys2Proof.Machine.execFinal s
  | .rdd idx => Sys2Proof.Machine.execRdd idx s
  | .rds sel => Sys2Proof.Machine.execRds sel s
  | .uload j => Sys2Proof.Machine.execUload j s
  | .uexp t => Sys2Proof.Machine.execUexp t s
  | .useed => Sys2Proof.Machine.execUseed s
  | .uround t => Sys2Proof.Machine.execUround t s
  | .ufold => Sys2Proof.Machine.execUfold s

end Sys2Proof.Machine
end

