-- ==== Sys2Proof/Machine/Fetch.lean ====
section
/-! DEFINITION. What the machine does next: reset before anything else, then the block in the core, then the host's
next input (70_reset_and_hazards.md R190; 00_scope.md R8; log 1). And where a word is placed so that the next step runs it. -/
namespace Sys2Proof.Machine

/-- What one step does. -/
inductive Action where
  /-- `RST`. -/
  | reset
  /-- The micro-operation at the sequencer position. -/
  | micro (i : Instr)
  /-- The sequencer stands outside the table (30_encoding.md R76). -/
  | badPosition
  /-- The host takes the response. -/
  | takeResponse
  /-- A command word is accepted. -/
  | accept (word : BitVec 16)
  /-- Nothing is asked of the machine. -/
  | hold
deriving DecidableEq, Repr

/-- What the host asks, with the sequencer idle. -/
def hostAction : List HostInput → Action
  | [] => .hold
  | .command word :: _ => .accept word
  | .takeResponse :: _ => .takeResponse
  | .reset :: _ => .reset

/-- What the machine does next. `RST` comes first in every state (70_reset_and_hazards.md R190); while a block is in the
core `CMD_READY` is low (30_encoding.md R80) and its micro-operation runs. -/
def nextAction (s : State) : Action :=
  if s.inbox.head? = some .reset then .reset
  else if s.position = 0 then hostAction s.inbox
  else
    match decodeUseq s.position with
    | .ok i => .micro i
    | .error _ => .badPosition

/-- An accepted command word: decoding comes before the state test (60_exceptions.md R164). -/
def runWord (word : BitVec 16) (s : State) : Host.Outcome State Fault Refusal :=
  match decodeCmd16 word with
  | .ok i => exec i s
  | .error _ => .next (raise .illegalCommand s)

/-- The inputs with no reset at their head. -/
def dropResets : List HostInput → List HostInput
  | .reset :: rest => dropResets rest
  | inputs => inputs

/-- A command word is placed at the command port, the sequencer idle; a sequencer position is placed in
`(PHASE, T)`, no reset waiting (log 12). -/
def placeWord (s : State) (c : CodeWord) : State :=
  match c with
  | .cmd16 word => { s.setPosition (.idle, 0) with inbox := .command word :: s.inbox }
  | .useq p =>
    match decodeUseq p with
    | .ok i =>
      match positionOf i with
      | some pos => { s.setPosition pos with inbox := dropResets s.inbox }
      | none => s
    | .error _ => { s.setPosition (.idle, 0) with inbox := .command (p.setWidth 16) :: s.inbox }

end Sys2Proof.Machine
end

