-- ==== Sys2Proof/Machine/Step.lean ====
section
/-! DEFINITION. One step of the machine: one command, one micro-operation where a block is in the core, a reset, the
taking of a response, or nothing (log 1). -/
namespace Sys2Proof.Machine

/-- The step. -/
def step (s : State) : Host.Outcome State Fault Refusal :=
  match nextAction s with
  | .reset => .next (applyReset s)
  | .micro i => exec i s
  | .badPosition => .fault .seqPosition
  | .takeResponse => .next s.takeInput
  | .accept word => runWord word s.takeInput
  | .hold => .next s

/-- The state with a word of opcode_table.json's numbering placed so that the very next step runs it (log 12). -/
def State.withFetchWord (s : State) (nbits w : Nat) : State :=
  match tableWord nbits w with
  | some c => placeWord s c
  | none => s

end Sys2Proof.Machine
end

