-- ==== Sys2Proof/Machine/Driver.lean ====
section
/-! DEFINITION. The host's driver over the machine (30_encoding.md R77, R78; log 16): lines of a command trace, the
pseudo-instructions' expansions, and a run that stops at the first response that is not OK. -/
namespace Sys2Proof.Machine

/-- The lines of a command trace (R77, R78), operands as numbers; Assembler.lean reads them from text. -/
inductive TraceLine where
  | instr (i : Instr)
  /-- `.word w`. -/
  | word (w : BitVec 16)
  /-- `UPDATE d`. -/
  | update (d : List Byte)
  /-- `FINALIZE`. -/
  | finalize
  /-- `DIGEST d`. -/
  | digest (d : List Byte)
deriving DecidableEq, Repr

/-- `UPDATE d`: one ABSORB per byte, none for no byte (R78). -/
def updateWords (d : List Byte) : List (BitVec 16) := d.map fun b => cmdWord 0x2 b

/-- `FINALIZE`: FINAL, RDD 0 .. RDD 19 (R78). -/
def finalizeWords : List (BitVec 16) :=
  cmdWord 0x3 0 :: (List.range 20).map fun i => cmdWord 0x4 (BitVec.ofNat 8 i)

/-- `DIGEST d`: INIT, UPDATE d, FINALIZE (R78). -/
def digestWords (d : List Byte) : List (BitVec 16) := cmdWord 0x1 0 :: (updateWords d ++ finalizeWords)

/-- The command words of a line; a micro-operation has none, since no host word carries one (R76). -/
def TraceLine.words : TraceLine → List (BitVec 16)
  | .instr i =>
    match encode i with
    | .cmd16 w => [w]
    | .useq _ => []
  | .word w => [w]
  | .update d => updateWords d
  | .finalize => finalizeWords
  | .digest d => digestWords d

/-- The names of the status selectors (R77). -/
inductive StatusName where
  | status | bufcnt | len7 | len6 | len5 | len4 | len3 | len2 | len1 | len0
deriving DecidableEq, Repr

/-- The selector of a name (R77). -/
def StatusName.selector : StatusName → Byte
  | .status => 0
  | .bufcnt => 1
  | .len7 => 2
  | .len6 => 3
  | .len5 => 4
  | .len4 => 5
  | .len3 => 6
  | .len2 => 7
  | .len1 => 8
  | .len0 => 9

/-- How a driver's run ends: with the bytes read, in order, with the first response that is not OK (R78), or
because the machine did not answer. -/
inductive DriverResult where
  | data (bytes : List Byte)
  | errorStatus (word : BitVec 16)
  | noResponse
deriving DecidableEq, Repr

/-- One handshake: the word is placed at the command port of a machine with no input waiting, and one step is run. -/
def issue (word : BitVec 16) (s : State) : Host.Outcome State Fault Refusal := step { s with inbox := [.command word] }

/-- The byte an accepted word reads: the data field of its response for RDD and RDS, none for any other word
(30_encoding.md R74). -/
def readByte (word r : BitVec 16) : List Byte :=
  if cmdOp word = 0x4 ∨ cmdOp word = 0x5 then [r.extractLsb' 0 8] else []

/-- The driver issues the words in order and gathers the bytes read; it stops at the first response whose status is
not OK and reports it (R78). -/
def drive : List (BitVec 16) → List Byte → State → State × DriverResult
  | [], got, s => (s, .data got)
  | word :: rest, got, s =>
    match issue word s with
    | .next s' =>
      match s'.rsp with
      | some r => if r.extractLsb' 8 2 = 0 then drive rest (got ++ readByte word r) s' else (s', .errorStatus r)
      | none => (s', .noResponse)
    | .fault _ => (s, .noResponse)
    | .refused _ => (s, .noResponse)

/-- `FINALIZE`: its result is the twenty data fields of the RDDs, in digest order; at a refused FINAL the driver stops
and reports the usage error, the old digest unread (42_readout_commands.md R152). -/
def driveFinalize (s : State) : State × DriverResult := drive finalizeWords [] s

/-- `DIGEST d`: its result is the twenty bytes `sha1(d)` (41_context_commands.md R130). -/
def driveDigest (d : List Byte) (s : State) : State × DriverResult := drive (digestWords d) [] s

/-- The driver that wants the source's contract exactly: before an empty update, which issues no word, it reads STATUS
and reports the usage error itself when the context is finalized (41_context_commands.md R129, D26). -/
def driveUpdate (d : List Byte) (s : State) : State × DriverResult :=
  match d with
  | [] =>
    match drive [cmdWord 0x5 StatusName.status.selector] [] s with
    | (s', .data [v]) =>
      if v.extractLsb' 0 2 = Lifecycle.finalized.code then (s', .errorStatus (rspWord .usage 0)) else (s', .data [])
    | (s', .data _) => (s', .noResponse)
    | (s', .errorStatus r) => (s', .errorStatus r)
    | (s', .noResponse) => (s', .noResponse)
  | _ :: _ => drive (updateWords d) [] s

end Sys2Proof.Machine
end

