-- ==== Sys2Proof/Safety.lean ====
section
/-! DEFINITION. The terms in which statements are made: the invariants of 10_state.md R34, which message a context
holds (41_context_commands.md R131), and which part of the state a host can see the effect of (10_state.md R33). -/
namespace Sys2Proof.Machine

/-- The sequencer is at `(IDLE, 0)` (10_state.md R32). -/
abbrev State.Idle (s : State) : Prop := s.phase = .idle ∧ s.t = 0

/-- What holds at every command boundary (10_state.md R34): the buffer is canonical memory; item 1, the count and the
position; item 2, the Empty state; item 3, count against length; item 5, every pending byte was written; item 6, the
Finalized state is drained. -/
def BoundaryInv (s : State) : Prop :=
  Memory.wf s.buf = true ∧
  s.bufcnt.toNat ≤ 63 ∧
  s.Idle ∧
  (s.st = .empty → s.len = 0 ∧ s.bufcnt = 0 ∧ s.h = Config.iv) ∧
  (s.st ≠ .finalized → s.bufcnt.toNat = s.len.toNat % 64) ∧
  (∀ i, i < s.bufcnt.toNat → Memory.lookup i s.buf ≠ none) ∧
  (s.st = .finalized → s.bufcnt = 0)

/-- The sequencer stands at a position of the table of 30_encoding.md R76, the idle position included. -/
def PositionLegal (s : State) : Prop := s.position = 0 ∨ ∃ i, decodeUseq s.position = .ok i

/-- What holds in every state, the ones in the middle of a block included: canonical memory and a legal position. -/
def AnywhereInv (s : State) : Prop := Memory.wf s.buf = true ∧ PositionLegal s

/-- The context holds exactly the message `m`, not yet finalised (10_state.md R34 items 2, 3, 5; 41_context_commands.md R131). -/
def Represents (s : State) (m : List Byte) : Prop :=
  s.st = (if m = [] then Lifecycle.empty else Lifecycle.accumulating) ∧
  s.len = BitVec.ofNat 64 m.length ∧
  s.bufcnt.toNat = m.length % 64 ∧
  s.h = chainOver m (m.length / 64) ∧
  (∀ i, i < m.length % 64 → readBuf s i = m.getD (64 * (m.length / 64) + i) 0) ∧
  s.Idle

/-- The context holds the digest of `m` (10_state.md R34 item 6; 41_context_commands.md R131). -/
def Digested (s : State) (m : List Byte) : Prop :=
  s.st = .finalized ∧ s.len = BitVec.ofNat 64 m.length ∧ s.bufcnt = 0 ∧ s.h = sha1Chain m ∧ s.Idle

/-- Two states of the same context: equal wherever a rule reads before it writes (10_state.md R33, R34 item 5). The
scratch registers, the bytes of `BUF` at `BUFCNT` and above, the ports and `epoch` may differ. -/
def SameContext (s s' : State) : Prop :=
  s.h = s'.h ∧ s.bufcnt = s'.bufcnt ∧ s.len = s'.len ∧ s.st = s'.st ∧ s.uerr = s'.uerr ∧ s.ierr = s'.ierr ∧
  ∀ i, i < s.bufcnt.toNat → readBuf s i = readBuf s' i

/-- The block the core would be given: `BUF[0..63]` (40_compression_core.md R90). -/
def bufferBlock (s : State) : Vector Byte 64 := Vector.ofFn fun i => readBuf s i.val

/-- `n` steps. -/
def stepN : Nat → State → Host.Outcome State Fault Refusal
  | 0, s => .next s
  | n + 1, s =>
    match step s with
    | .next s' => stepN n s'
    | .fault r => .fault r
    | .refused r => .refused r

end Sys2Proof.Machine
end

