-- ==== Sys2Proof/Certificates/Slice0/Obligations.lean ====
section
/-! DEFINITION. The statements for the provers, from the spec's numbered rules. -/
open Sys2Proof Sys2Proof.Machine

/-! Encoding. -/

/-- Decoding the word of a well-formed instruction gives it back, every operand at every value its encoding admits
(30_encoding.md sections 3 and 6). -/
def Obligations.DecodeInvertsEncode : Prop :=
  ∀ i : Instr, i.WellFormed → decode (encode i) = .ok i

/-- Each word has one meaning: what decodes is well formed, and its word is the one it was read from. -/
def Obligations.EncodeInvertsDecode : Prop :=
  ∀ (c : CodeWord) (i : Instr), decode c = .ok i → i.WellFormed ∧ encode i = c

/-- The opcode map R72, with the words as R77 writes them. -/
def Obligations.LegalCommandWords : Prop :=
  ∀ (w : BitVec 16) (i : Instr), decodeCmd16 w = .ok i ↔
    (w = 0x1000 ∧ i = .init) ∨
    (∃ b : Byte, w = 0x2000 ||| b.setWidth 16 ∧ i = .absorb b) ∨
    (w = 0x3000 ∧ i = .final) ∨
    (∃ k : Byte, k.toNat ≤ 19 ∧ w = 0x4000 ||| k.setWidth 16 ∧ i = .rdd k) ∨
    (∃ k : Byte, k.toNat ≤ 9 ∧ w = 0x5000 ||| k.setWidth 16 ∧ i = .rds k)

/-- The sequencer positions of R76. -/
def Obligations.SequencerPositions : Prop :=
  ∀ (p : BitVec 10) (i : Instr), decodeUseq p = .ok i ↔
    (∃ j : BitVec 4, p = 0x080 + j.setWidth 10 ∧ i = .uload j) ∨
    (∃ k : BitVec 7, 16 ≤ k.toNat ∧ k.toNat ≤ 79 ∧ p = 0x100 + k.setWidth 10 ∧ i = .uexp k) ∨
    (p = 0x180 ∧ i = .useed) ∨
    (∃ k : BitVec 7, k.toNat ≤ 79 ∧ p = 0x200 + k.setWidth 10 ∧ i = .uround k) ∨
    (p = 0x280 ∧ i = .ufold)

/-- R73: the illegal words are exactly the listed ones, the all-zero and the all-one word among them, and an illegal word
changes nothing but `IERR`, with the response `rsp(ILLEGAL, 0x00)`. -/
def Obligations.IllegalWords : Prop :=
  (∀ w : BitVec 16, (¬ ∃ i, decodeCmd16 w = .ok i) ↔
    w.extractLsb' 12 4 = 0x0 ∨ 0x6 ≤ w.extractLsb' 12 4 ∨ w.extractLsb' 8 4 ≠ 0 ∨
    ((w.extractLsb' 12 4 = 0x1 ∨ w.extractLsb' 12 4 = 0x3) ∧ w.extractLsb' 0 8 ≠ 0x00) ∨
    (w.extractLsb' 12 4 = 0x4 ∧ 19 < (w.extractLsb' 0 8).toNat) ∨
    (w.extractLsb' 12 4 = 0x5 ∧ 9 < (w.extractLsb' 0 8).toNat)) ∧
  (¬ ∃ i, decodeCmd16 0x0000 = .ok i) ∧ (¬ ∃ i, decodeCmd16 0xFFFF = .ok i) ∧
  (∀ (w : BitVec 16) (s : State) (rest : List HostInput), s.Idle → s.inbox = .command w :: rest →
    (¬ ∃ i, decodeCmd16 w = .ok i) → step s = .next { s with inbox := rest, ierr := true, rsp := some 0x0200 })

/-- Words written out from the tables R72 and R76, one or more for each format and family, through `decodeTableWord`. The
positions stand in 16 bits there: that a 16-bit number which is no legal command word but a position of the table is read
as that position is the model's choice (log 12); as a command word on the port it is illegal (R73). -/
def Obligations.TableWordsDecode : Prop :=
  decodeTableWord 16 0b0001000000000000 = some .init ∧
  decodeTableWord 16 0b0010000001100001 = some (.absorb 0x61) ∧
  decodeTableWord 16 0b0011000000000000 = some .final ∧
  decodeTableWord 16 0b0100000000010011 = some (.rdd 19) ∧
  decodeTableWord 16 0b0101000000001001 = some (.rds 9) ∧
  decodeTableWord 16 0b0010001111 = some (.uload 15) ∧
  decodeTableWord 16 0b0100010000 = some (.uexp 16) ∧
  decodeTableWord 16 0b0110000000 = some .useed ∧
  decodeTableWord 16 0b1001001111 = some (.uround 79) ∧
  decodeTableWord 16 0b1010000000 = some .ufold ∧
  decodeTableWord 16 0x4014 = none ∧ decodeTableWord 16 0x2161 = none

/-! Reset. -/

/-- The values R36 gives for reset, where it gives one. -/
def Obligations.ResetLeavesFreshContext : Prop :=
  State.reset.h = #v[0x67452301, 0xEFCDAB89, 0x98BADCFE, 0x10325476, 0xC3D2E1F0] ∧
  State.reset.bufcnt = 0 ∧ State.reset.len = 0 ∧ State.reset.st = .empty ∧
  State.reset.uerr = false ∧ State.reset.ierr = false ∧ State.reset.Idle ∧ State.reset.rsp = none

/-- Reset may come in every state, a position in the middle of a block included; it gives the values of R36, returns no
response for an abandoned command, and leaves the host's later inputs (R190, R193). -/
def Obligations.ResetFromEveryState : Prop :=
  ∀ (s : State) (rest : List HostInput), s.inbox = .reset :: rest → ∃ t, step s = .next t ∧
    t.h = #v[0x67452301, 0xEFCDAB89, 0x98BADCFE, 0x10325476, 0xC3D2E1F0] ∧
    t.bufcnt = 0 ∧ t.len = 0 ∧ t.st = .empty ∧ t.uerr = false ∧ t.ierr = false ∧ t.Idle ∧ t.rsp = none ∧ t.inbox = rest

/-! Primitives of the core. -/

/-- R91: the formula, the bit that moves, the corner cases and the examples. -/
def Obligations.RotateLeftMovesEveryBit : Prop :=
  (∀ (x : Word) (n : Nat), 0 < n → n < 32 →
    rotl32 x n = (x <<< n) ||| (x >>> (32 - n)) ∧
    (∀ i, i < 32 → (rotl32 x n).getLsbD ((i + n) % 32) = x.getLsbD i) ∧
    rotl32 0 n = 0 ∧ rotl32 0xFFFFFFFF n = 0xFFFFFFFF) ∧
  (∀ x : Word, rotl32 x 30 = x.rotateRight 2) ∧
  rotl32 0x80000000 1 = 0x00000001 ∧ rotl32 0x67452301 5 = 0xE8A4602C ∧ rotl32 0xEFCDAB89 30 = 0x7BF36AE2

/-- R92: the function of each range, bit by bit, so that each result bit depends only on the same bit of `b`, `c`, `d`. -/
def Obligations.RoundFunctionByRange : Prop :=
  (∀ (t i : Nat) (b c d : Word), t < 80 → i < 32 →
    (roundFn t b c d).getLsbD i =
      if t < 20 then (b.getLsbD i && c.getLsbD i) || (!b.getLsbD i && d.getLsbD i)
      else if t < 40 then (b.getLsbD i != c.getLsbD i) != d.getLsbD i
      else if t < 60 then (b.getLsbD i && c.getLsbD i) || (b.getLsbD i && d.getLsbD i) || (c.getLsbD i && d.getLsbD i)
      else (b.getLsbD i != c.getLsbD i) != d.getLsbD i) ∧
  roundFn 0 0xEFCDAB89 0x98BADCFE 0x10325476 = 0x98BADCFE ∧
  roundFn 20 0xEFCDAB89 0x98BADCFE 0x10325476 = 0x67452301 ∧
  roundFn 40 0xEFCDAB89 0x98BADCFE 0x10325476 = 0x98BADCFE

/-- R93: `K(t) = K[t div 20]`, with the four values. -/
def Obligations.RoundConstants : Prop :=
  ∀ (t : Nat) (ht : t < 80),
    roundConst t = kTable[t / 20] ∧
    roundConst t = (if t ≤ 19 then 0x5A827999 else if t ≤ 39 then 0x6ED9EBA1 else if t ≤ 59 then 0x8F1BBCDC else 0xCA62C1D6)

/-- Big-endian order (20_memory.md section 3, 00_scope.md section 6): `be32` and `byte_k` as numbers. -/
def Obligations.BigEndianBytes : Prop :=
  (∀ b0 b1 b2 b3 : Byte,
    (be32 b0 b1 b2 b3).toNat = b0.toNat * 2 ^ 24 + b1.toNat * 2 ^ 16 + b2.toNat * 2 ^ 8 + b3.toNat) ∧
  (∀ (v : Word) (k : Nat), k < 4 → (byteOf v 4 k).toNat = v.toNat / 2 ^ (8 * (3 - k)) % 256) ∧
  (∀ (v : BitVec 64) (k : Nat), k < 8 → (byteOf v 8 k).toNat = v.toNat / 2 ^ (8 * (7 - k)) % 256)

/-- R62: the digest byte view. -/
def Obligations.DigestByteView : Prop :=
  ∀ (h : Vector Word 5) (i : Nat) (hi : i < 20),
    digestByte h i = byteOf h[i / 4] 4 (i % 4) ∧
    digestByte h i = h[i / 4].extractLsb' (24 - 8 * (i % 4)) 8 ∧
    (digestByte h 0 = h[0].extractLsb' 24 8 ∧ digestByte h 3 = h[0].extractLsb' 0 8 ∧
     digestByte h 4 = h[1].extractLsb' 24 8 ∧ digestByte h 19 = h[4].extractLsb' 0 8)

/-! The micro-operations: result, frame, completion. -/

/-- uLOAD writes word `j` of `W` from four bytes of `BUF`, the first most significant, and nothing else but the position. -/
def Obligations.LoadOperation : Prop :=
  ∀ (j : BitVec 4) (s : State), ∃ t, exec (.uload j) s = .next t ∧
    (∀ (i : Nat) (hi : i < 80), t.w[i] =
      if i = j.toNat then
        readBuf s (4 * i) ++ readBuf s (4 * i + 1) ++ readBuf s (4 * i + 2) ++ readBuf s (4 * i + 3)
      else s.w[i]) ∧
    (t.phase, t.t.toNat) = (if j.toNat < 15 then (Phase.load, j.toNat + 1) else (Phase.expand, 16)) ∧
    (∀ a, readBuf t a = readBuf s a) ∧
    t = { s with w := t.w, phase := t.phase, t := t.t }

/-- uEXP writes `W[t]` by the recurrence, rotation included, and nothing else but the position. -/
def Obligations.ExpandOperation : Prop :=
  ∀ (k : BitVec 7) (s : State), 16 ≤ k.toNat → k.toNat ≤ 79 → ∃ t, exec (.uexp k) s = .next t ∧
    (∀ (i : Nat) (hi : i < 80), t.w[i] =
      if i = k.toNat then (s.w[i - 3] ^^^ s.w[i - 8] ^^^ s.w[i - 14] ^^^ s.w[i - 16]).rotateLeft 1 else s.w[i]) ∧
    (t.phase, t.t.toNat) = (if k.toNat < 79 then (Phase.expand, k.toNat + 1) else (Phase.seed, 0)) ∧
    (∀ a, readBuf t a = readBuf s a) ∧
    t = { s with w := t.w, phase := t.phase, t := t.t }

/-- uSEED copies `H` into the working registers; `H` and all else keep their values. -/
def Obligations.SeedOperation : Prop :=
  ∀ s : State, ∃ t, exec .useed s = .next t ∧
    t.wk.a = s.h[0] ∧ t.wk.b = s.h[1] ∧ t.wk.c = s.h[2] ∧ t.wk.d = s.h[3] ∧ t.wk.e = s.h[4] ∧
    (∀ a, readBuf t a = readBuf s a) ∧
    t = { s with wk := t.wk, phase := .round, t := 0 }

/-- uROUND: `TEMP` and the five registers from their values before the round, and nothing else but the position. -/
def Obligations.RoundOperation : Prop :=
  ∀ (k : BitVec 7) (s : State) (hk : k.toNat ≤ 79), ∃ t, exec (.uround k) s = .next t ∧
    t.temp = s.wk.a.rotateLeft 5 + roundFn k.toNat s.wk.b s.wk.c s.wk.d + s.wk.e + roundConst k.toNat + s.w[k.toNat] ∧
    t.wk.a = t.temp ∧ t.wk.b = s.wk.a ∧ t.wk.c = s.wk.b.rotateLeft 30 ∧ t.wk.d = s.wk.c ∧ t.wk.e = s.wk.d ∧
    (t.phase, t.t.toNat) = (if k.toNat < 79 then (Phase.round, k.toNat + 1) else (Phase.fold, 0)) ∧
    (∀ a, readBuf t a = readBuf s a) ∧
    t = { s with temp := t.temp, wk := t.wk, phase := t.phase, t := t.t }

/-- uFOLD adds the working registers into `H` modulo 2^32, and changes nothing else but the position. -/
def Obligations.FoldOperation : Prop :=
  ∀ s : State, ∃ t, exec .ufold s = .next t ∧
    t.h[0].toNat = (s.h[0].toNat + s.wk.a.toNat) % 2 ^ 32 ∧ t.h[1].toNat = (s.h[1].toNat + s.wk.b.toNat) % 2 ^ 32 ∧
    t.h[2].toNat = (s.h[2].toNat + s.wk.c.toNat) % 2 ^ 32 ∧ t.h[3].toNat = (s.h[3].toNat + s.wk.d.toNat) % 2 ^ 32 ∧
    t.h[4].toNat = (s.h[4].toNat + s.wk.e.toNat) % 2 ^ 32 ∧
    (∀ a, readBuf t a = readBuf s a) ∧
    t = { s with h := t.h, phase := .idle, t := 0 }

/-! One block. -/

/-- The positions of R99 in order, and at the end the state `runBlock` gives: with no reset waiting, stepping from
`(LOAD, 0)` visits exactly the 162 positions. -/
def Obligations.MicroSequenceInOrder : Prop :=
  ∀ s : State, s.phase = .load → s.t = 0 → s.inbox.head? ≠ some .reset →
    (∀ k, k < 162 → ∃ u, stepN k s = .next u ∧
      (u.phase, u.t.toNat) =
        (if k < 16 then (Phase.load, k) else if k < 80 then (Phase.expand, k) else if k = 80 then (Phase.seed, 0)
         else if k < 161 then (Phase.round, k - 81) else (Phase.fold, 0))) ∧
    stepN 162 s = .next (runBlock s)

/-- R100: the sequence ends with `H` replaced by `compress(H, block)` and no other architectural state changed. -/
def Obligations.BlockSequenceComputesCompress : Prop :=
  ∀ s : State,
    (runBlock s).h = compress s.h (bufferBlock s) ∧
    (∀ a, readBuf (runBlock s) a = readBuf s a) ∧
    runBlock s =
      { s with h := (runBlock s).h, wk := (runBlock s).wk, temp := (runBlock s).temp, w := (runBlock s).w, phase := .idle, t := 0 }

/-- What the sequence of R99 leaves in the scratch registers, whatever they held (the model runs that sequence, log 1). -/
def Obligations.BlockOverwritesScratch : Prop :=
  ∀ s : State,
    (runBlock s).w = schedule (bufferBlock s) ∧
    (runBlock s).wk = allRounds (schedule (bufferBlock s)) (seedWorking s.h) ∧
    (runBlock s).temp = (runBlock s).wk.a

/-- The schedule of a block is its sixteen words and the recurrence (40_compression_core.md sections 1 and 3). -/
def Obligations.ScheduleRecurrence : Prop :=
  ∀ block : Vector Byte 64,
    (∀ (j : Nat) (hj : j < 16), (schedule block)[j] =
      block[4 * j] ++ block[4 * j + 1] ++ block[4 * j + 2] ++ block[4 * j + 3]) ∧
    (∀ (t : Nat) (_ : 16 ≤ t) (_ : t < 80), (schedule block)[t] =
      ((schedule block)[t - 3] ^^^ (schedule block)[t - 8] ^^^ (schedule block)[t - 14] ^^^ (schedule block)[t - 16]).rotateLeft 1)

/-- `compress` is eighty rounds over the schedule from the chaining value, folded into it (40_compression_core.md section 1). -/
def Obligations.CompressIsEightyRounds : Prop :=
  ∀ (h : Vector Word 5) (block : Vector Byte 64), ∃ r : Nat → Working,
    r 0 = { a := h[0], b := h[1], c := h[2], d := h[3], e := h[4] } ∧
    (∀ (t : Nat) (ht : t < 80), r (t + 1) =
      { a := (r t).a.rotateLeft 5 + roundFn t (r t).b (r t).c (r t).d + (r t).e + roundConst t + (schedule block)[t],
        b := (r t).a, c := (r t).b.rotateLeft 30, d := (r t).c, e := (r t).d }) ∧
    compress h block = #v[h[0] + (r 80).a, h[1] + (r 80).b, h[2] + (r 80).c, h[3] + (r 80).d, h[4] + (r 80).e]

/-! The commands: result, frame, completion. -/

/-- INIT in every state: a fresh context and clear flags; `BUF` and the scratch registers are left alone. -/
def Obligations.InitMakesFreshContext : Prop :=
  ∀ s : State, ∃ t, exec .init s = .next t ∧
    t.h = #v[0x67452301, 0xEFCDAB89, 0x98BADCFE, 0x10325476, 0xC3D2E1F0] ∧
    t.bufcnt = 0 ∧ t.len = 0 ∧ t.st = .empty ∧ t.uerr = false ∧ t.ierr = false ∧ t.rsp = some 0x0000 ∧
    (∀ a, readBuf t a = readBuf s a) ∧
    t = { s with h := t.h, bufcnt := 0, len := 0, st := .empty, uerr := false, ierr := false, rsp := some 0x0000 }

/-- ABSORB of a byte that does not fill the buffer stores it at `BUFCNT` and counts it. -/
def Obligations.AbsorbWithinBlock : Prop :=
  ∀ (b : Byte) (s : State), s.st ≠ .finalized → s.bufcnt.toNat < 63 → ∃ t, exec (.absorb b) s = .next t ∧
    (∀ a, readBuf t a = if a = s.bufcnt.toNat then b else readBuf s a) ∧
    t.bufcnt.toNat = s.bufcnt.toNat + 1 ∧ t.len.toNat = (s.len.toNat + 1) % 2 ^ 64 ∧
    t = { s with buf := t.buf, bufcnt := t.bufcnt, len := t.len, st := .accumulating, rsp := some 0x0000 }

/-- ABSORB of the 64th byte compresses the block and drains the count. -/
def Obligations.AbsorbCompletesBlock : Prop :=
  ∀ (b : Byte) (s : State), s.st ≠ .finalized → s.bufcnt.toNat = 63 → ∃ t, exec (.absorb b) s = .next t ∧
    (∀ a, readBuf t a = if a = 63 then b else readBuf s a) ∧
    t.h = compress s.h ((bufferBlock s).set 63 b) ∧
    t.len.toNat = (s.len.toNat + 1) % 2 ^ 64 ∧
    t = { s with h := t.h, buf := t.buf, bufcnt := 0, len := t.len, st := .accumulating, wk := t.wk, temp := t.temp,
                 w := t.w, phase := .idle, t := 0, rsp := some 0x0000 }

/-- FINAL with at most 55 pending bytes: one block of the pending bytes, 0x80, zeros and the length, compressed. -/
def Obligations.FinalOneBlock : Prop :=
  ∀ s : State, s.st ≠ .finalized → s.bufcnt.toNat ≤ 55 → ∃ (t : State) (block : Vector Byte 64),
    exec .final s = .next t ∧
    (∀ (i : Nat) (hi : i < 64), block[i] =
      if i < s.bufcnt.toNat then readBuf s i else if i = s.bufcnt.toNat then 0x80 else if i < 56 then 0x00
      else (s.len * 8).extractLsb' (8 * (63 - i)) 8) ∧
    t.h = compress s.h block ∧
    (∀ a, readBuf t a = if h : a < 64 then block[a] else readBuf s a) ∧
    t = { s with h := t.h, buf := t.buf, bufcnt := 0, st := .finalized, wk := t.wk, temp := t.temp, w := t.w,
                 phase := .idle, t := 0, rsp := some 0x0000 }

/-- FINAL with 56 to 63 pending bytes: a block of the pending bytes, 0x80 and zeros, then a block of zeros and the length. -/
def Obligations.FinalTwoBlocks : Prop :=
  ∀ s : State, s.st ≠ .finalized → 56 ≤ s.bufcnt.toNat → s.bufcnt.toNat ≤ 63 →
    ∃ (t : State) (block1 block2 : Vector Byte 64), exec .final s = .next t ∧
    (∀ (i : Nat) (hi : i < 64), block1[i] =
      if i < s.bufcnt.toNat then readBuf s i else if i = s.bufcnt.toNat then 0x80 else 0x00) ∧
    (∀ (i : Nat) (hi : i < 64), block2[i] = if i < 56 then 0x00 else (s.len * 8).extractLsb' (8 * (63 - i)) 8) ∧
    t.h = compress (compress s.h block1) block2 ∧
    (∀ a, readBuf t a = if h : a < 64 then block2[a] else readBuf s a) ∧
    t = { s with h := t.h, buf := t.buf, bufcnt := 0, st := .finalized, wk := t.wk, temp := t.temp, w := t.w,
                 phase := .idle, t := 0, rsp := some 0x0000 }

/-- R124: what FINAL feeds is `padseq`, its zeros are the loop's, and its length fills one block or two. -/
def Obligations.FinalFeedsPadseq : Prop :=
  (∀ (n : Nat) (bits : BitVec 64), n ≤ 63 →
    padseq n bits = 0x80 :: (List.replicate ((55 - (n : Int)) % 64).toNat (0x00 : Byte) ++
      [byteOf bits 8 0, byteOf bits 8 1, byteOf bits 8 2, byteOf bits 8 3, byteOf bits 8 4, byteOf bits 8 5,
       byteOf bits 8 6, byteOf bits 8 7]) ∧
    (padseq n bits).length = if n ≤ 55 then 64 - n else 128 - n) ∧
  (∀ s : State, s.bufcnt.toNat ≤ 63 →
    (feed 0x80 s).bufcnt.toNat = (s.bufcnt.toNat + 1) % 64 ∧
    feedZeros 64 (feed 0x80 s) = feedAll (List.replicate ((55 - (s.bufcnt.toNat : Int)) % 64).toNat 0x00) (feed 0x80 s) ∧
    feedPadding s = feedAll (padseq s.bufcnt.toNat (lbits s.len)) s)

/-- The bit length (41_context_commands.md section 3): eight times the byte count modulo 2^64, three low bits zero. -/
def Obligations.BitLength : Prop :=
  ∀ len : BitVec 64,
    (lbits len).toNat = len.toNat * 8 % 2 ^ 64 ∧ lbits len = len.extractLsb' 0 61 ++ (0 : BitVec 3) ∧
    (lbits 56) = 0x00000000000001C0 ∧ lbits 0x100000000 = 0x0000000800000000

/-- The padded message is a whole number of blocks: one more than the full ones, or two (41_context_commands.md section 3). -/
def Obligations.PaddedBlockCount : Prop :=
  ∀ m : List Byte, (padded m).length % 64 = 0 ∧
    (padded m).length / 64 = m.length / 64 + (if m.length % 64 ≤ 55 then 1 else 2)

/-- RDD of a legal index in Finalized answers the digest byte and changes nothing but the response. -/
def Obligations.RddReturnsDigestByte : Prop :=
  ∀ (i : Byte) (s : State) (hi : i.toNat ≤ 19), s.st = .finalized →
    exec (.rdd i) s =
      .next { s with rsp := some ((s.h[i.toNat / 4].extractLsb' (24 - 8 * (i.toNat % 4)) 8).setWidth 16) }

/-- RDS of a legal selector answers the status byte in every state and changes nothing but the response. -/
def Obligations.RdsReturnsStatusByte : Prop :=
  ∀ (sel : Byte) (s : State), sel.toNat ≤ 9 → ∃ v : Byte,
    exec (.rds sel) s = .next { s with rsp := some (v.setWidth 16) } ∧
    (sel = 0 → v.toNat = 8 * s.ierr.toNat + 4 * s.uerr.toNat +
      (match s.st with | .empty => 0 | .accumulating => 1 | .finalized => 2)) ∧
    (sel = 1 → v.toNat = s.bufcnt.toNat) ∧
    (∀ k, k < 8 → sel.toNat = k + 2 → v = s.len.extractLsb' (8 * (7 - k)) 8)

/-! Exceptions and the lifecycle. -/

/-- R163: a UsageError, in its three cases, and an IllegalCommand change their flag and the response, nothing else. -/
def Obligations.ExceptionsChangeOnlyTheirFlag : Prop :=
  (∀ (b : Byte) (s : State), s.st = .finalized →
    exec (.absorb b) s = .next { s with uerr := true, rsp := some 0x0100 } ∧
    exec .final s = .next { s with uerr := true, rsp := some 0x0100 }) ∧
  (∀ (i : Byte) (s : State), i.toNat ≤ 19 → s.st ≠ .finalized →
    exec (.rdd i) s = .next { s with uerr := true, rsp := some 0x0100 }) ∧
  (∀ (w : BitVec 16) (s : State), (¬ ∃ i, decodeCmd16 w = .ok i) →
    runWord w s = .next { s with ierr := true, rsp := some 0x0200 })

/-- R127: the table of the next `ST` and the response status, for every legal command, illegal words and reset, in every
state where a command may stand; and Empty stays Empty at an update with zero bytes. -/
def Obligations.LifecycleTable : Prop :=
  ∀ s : State, s.bufcnt.toNat ≤ 63 →
    (∃ t, exec .init s = .next t ∧ t.st = .empty ∧ t.rsp = some 0x0000) ∧
    (∀ b, ∃ t, exec (.absorb b) s = .next t ∧
      if s.st = .finalized then t.st = .finalized ∧ t.rsp = some 0x0100 else t.st = .accumulating ∧ t.rsp = some 0x0000) ∧
    (∃ t, exec .final s = .next t ∧ t.st = .finalized ∧
      t.rsp = if s.st = .finalized then some 0x0100 else some 0x0000) ∧
    (∀ i : Byte, i.toNat ≤ 19 → ∃ t r, exec (.rdd i) s = .next t ∧ t.st = s.st ∧ t.rsp = some r ∧
      if s.st = .finalized then r.extractLsb' 8 8 = 0 else r = 0x0100) ∧
    (∀ sel : Byte, sel.toNat ≤ 9 → ∃ t r, exec (.rds sel) s = .next t ∧ t.st = s.st ∧ t.rsp = some r ∧
      r.extractLsb' 8 8 = 0) ∧
    (∀ w : BitVec 16, (¬ ∃ i, decodeCmd16 w = .ok i) → ∃ t, runWord w s = .next t ∧ t.st = s.st ∧ t.rsp = some 0x0200) ∧
    (∀ rest, ∃ t, step { s with inbox := .reset :: rest } = .next t ∧ t.st = .empty) ∧
    (s.st = .empty → drive (updateWords []) [] s = (s, .data []))

/-- One response follows each accepted command, in the form of R74 and R75, and `CMD_READY` stays low while it waits
(30_encoding.md sections 1 and 5). Where the host's next input is another command, the step that accepts it runs it with
the response already taken: that a host takes the response there, and that no state waits for it to, is the model's choice
(log 3), and so is a command accepted from a state with an earlier response at the port. -/
def Obligations.EveryCommandIsAnswered : Prop :=
  ∀ (w : BitVec 16) (s : State) (rest : List HostInput), s.Idle → s.inbox = .command w :: rest → s.bufcnt.toNat ≤ 63 →
    ∃ t r, step s = .next t ∧ t.rsp = some r ∧ t.inbox = rest ∧ t.Idle ∧ t.rspValid = true ∧ t.cmdReady = false ∧
      r.extractLsb' 10 6 = 0 ∧ r.extractLsb' 8 2 ≠ 3 ∧ (r.extractLsb' 8 2 ≠ 0 → r.extractLsb' 0 8 = 0) ∧
      (w.extractLsb' 12 4 ≠ 4 → w.extractLsb' 12 4 ≠ 5 → r.extractLsb' 0 8 = 0) ∧
      (∀ (w' : BitVec 16) (rest' : List HostInput), rest = .command w' :: rest' →
        step t = runWord w' { t with inbox := rest', rsp := none })

/-- The flags are sticky: once set, only reset and INIT clear them (10_state.md section 5). -/
def Obligations.ErrorFlagsAreSticky : Prop :=
  ∀ s t : State, step s = .next t → s.inbox.head? ≠ some .reset →
    ¬ (s.Idle ∧ s.inbox.head? = some (.command 0x1000)) →
    (s.uerr = true → t.uerr = true) ∧ (s.ierr = true → t.ierr = true)

/-- `UERR` is set by a refused command alone, `IERR` by an illegal word alone (10_state.md section 5). -/
def Obligations.ErrorFlagsAreSetByErrorsOnly : Prop :=
  ∀ s t : State, step s = .next t →
    (s.uerr = false → t.uerr = true → t.rsp = some 0x0100 ∧ t = { s with inbox := t.inbox, uerr := true, rsp := some 0x0100 }) ∧
    (s.ierr = false → t.ierr = true → t.rsp = some 0x0200 ∧ t = { s with inbox := t.inbox, ierr := true, rsp := some 0x0200 })

/-- A finalised digest stays until INIT or reset, whatever else is issued (41_context_commands.md section 4). -/
def Obligations.FinalizedDigestStays : Prop :=
  ∀ s t : State, step s = .next t → s.Idle → s.st = .finalized → s.inbox.head? ≠ some .reset →
    s.inbox.head? ≠ some (.command 0x1000) →
    t.st = .finalized ∧ t.h = s.h ∧ t.len = s.len ∧ t.bufcnt = s.bufcnt ∧ t.Idle

/-- `LEN` after a step, by what the step did: zero after reset and INIT, one more modulo 2^64 after an ABSORB that
executes, and as it was after anything else (10_state.md section 4). -/
def Obligations.LengthCountsAbsorbedBytes : Prop :=
  ∀ s t : State, step s = .next t →
    ((s.inbox.head? = some .reset ∨ s.Idle ∧ s.inbox.head? = some (.command 0x1000)) → t.len = 0) ∧
    ((s.Idle ∧ s.st ≠ .finalized ∧ ∃ b : Byte, s.inbox.head? = some (.command (0x2000 ||| b.setWidth 16))) →
      t.len.toNat = (s.len.toNat + 1) % 2 ^ 64) ∧
    (s.inbox.head? ≠ some .reset → ¬ (s.Idle ∧ s.inbox.head? = some (.command 0x1000)) →
      ¬ (s.Idle ∧ s.st ≠ .finalized ∧ ∃ b : Byte, s.inbox.head? = some (.command (0x2000 ||| b.setWidth 16))) →
      t.len = s.len)

/-- The writers of `H`: reset and INIT load `IV`, uFOLD adds, in a step of its own or inside an ABSORB that fills the
buffer or a FINAL (10_state.md section 2). -/
def Obligations.ChainingValueWriters : Prop :=
  ∀ s t : State, step s = .next t →
    t.h = s.h ∨
    ((s.inbox.head? = some .reset ∨ s.Idle ∧ s.inbox.head? = some (.command 0x1000)) ∧ t.h = Config.iv) ∨
    (s.phase = .fold ∧ s.t = 0 ∧ t.h = foldChain s.h s.wk) ∨
    (s.Idle ∧ s.st ≠ .finalized ∧ s.bufcnt.toNat = 63 ∧
      ∃ b : Byte, s.inbox.head? = some (.command (0x2000 ||| b.setWidth 16))) ∨
    (s.Idle ∧ s.st ≠ .finalized ∧ s.inbox.head? = some (.command 0x3000))

/-! The step. -/

/-- With the sequencer idle, the step accepts the command word and runs the instruction it decodes to, the earlier response
taken; with a block in the core and no reset waiting, it runs the micro-operation at the sequencer position. -/
def Obligations.StepRunsDecodedInstruction : Prop :=
  (∀ (w : BitVec 16) (i : Instr) (s : State) (rest : List HostInput), s.Idle → s.inbox = .command w :: rest →
    decodeCmd16 w = .ok i → step s = exec i { s with inbox := rest, rsp := none }) ∧
  (∀ (i : Instr) (s : State), s.inbox.head? ≠ some .reset → decodeUseq (s.phase.code ++ s.t) = .ok i →
    step s = exec i s)

/-- The word the host places runs at the very next step (the model's loading interface, log 12). -/
def Obligations.PlacedWordRunsNext : Prop :=
  (∀ (w : BitVec 16) (i : Instr) (s : State), decodeCmd16 w = .ok i →
    step (s.withFetchWord 16 w.toNat) = exec i { s with phase := .idle, t := 0, rsp := none }) ∧
  (∀ (p : BitVec 10) (i : Instr) (s : State), decodeUseq p = .ok i → s.inbox = [] → ∃ t : State,
    step (s.withFetchWord 16 p.toNat) = exec i t ∧ t.position = p ∧ t = { s with phase := t.phase, t := t.t })

/-- With nothing asked of it the machine holds its state, and a taken response leaves it ready for the next command
(30_encoding.md section 1, 60_exceptions.md section 7). -/
def Obligations.IdleMachineHoldsItsState : Prop :=
  (∀ s : State, s.Idle → s.inbox = [] → step s = .next s) ∧
  (∀ (s : State) (rest : List HostInput), s.Idle → s.inbox = .takeResponse :: rest → ∃ t, step s = .next t ∧
    t = { s with inbox := rest, rsp := none } ∧ t.cmdReady = true)

/-- Where the rules never lead, the model stops by name (logs 9 and 10): a count past 63 at a command that feeds, an index
outside the table, a position outside the table. -/
def Obligations.StopsOutsideTheRules : Prop :=
  (∀ (b : Byte) (s : State), s.st ≠ .finalized → 64 ≤ s.bufcnt.toNat →
    exec (.absorb b) s = .fault .bufcntRange ∧ exec .final s = .fault .bufcntRange) ∧
  (∀ (k : BitVec 7) (s : State), k.toNat < 16 ∨ 79 < k.toNat → exec (.uexp k) s = .fault .seqPosition) ∧
  (∀ (k : BitVec 7) (s : State), 79 < k.toNat → exec (.uround k) s = .fault .seqPosition) ∧
  (∀ s : State, ¬ PositionLegal s → s.inbox.head? ≠ some .reset → step s = .fault .seqPosition)

/-- An RDD or RDS whose operand the command word may not carry raises IllegalCommand in every state (log 14). -/
def Obligations.ReadOperandsOutOfRange : Prop :=
  (∀ (i : Byte) (s : State), 19 < i.toNat → exec (.rdd i) s = .next { s with ierr := true, rsp := some 0x0200 }) ∧
  (∀ (sel : Byte) (s : State), 9 < sel.toNat → exec (.rds sel) s = .next { s with ierr := true, rsp := some 0x0200 })

/-! Invariants. -/

/-- The boundary invariant holds after reset. -/
def Obligations.BoundaryInvAtReset : Prop := BoundaryInv State.reset

/-- Every step keeps the boundary invariant (10_state.md section 9). -/
def Obligations.BoundaryInvKept : Prop := ∀ s t : State, BoundaryInv s → step s = .next t → BoundaryInv t

/-- Every step keeps canonical memory and a legal sequencer position, from every state that has them, the ones in the
middle of a block included (30_encoding.md section 6). -/
def Obligations.AnywhereInvKept : Prop := ∀ s t : State, AnywhereInv s → step s = .next t → AnywhereInv t

/-- The machine never stops at a legal position with a count up to 63: no data, no word and no input ends a run
(60_exceptions.md section 1, 70_reset_and_hazards.md section 5). -/
def Obligations.LegalStatesAlwaysStep : Prop :=
  ∀ s : State, PositionLegal s → s.bufcnt.toNat ≤ 63 → ∃ t, step s = .next t

/-- Two canonical memories that read alike at every address are equal. -/
def Obligations.CanonicalMemoryIsUnique : Prop :=
  ∀ m m' : Memory, Memory.wf m = true → Memory.wf m' = true → (∀ a, Memory.lookup a m = Memory.lookup a m') → m = m'

/-! The message and its digest. -/

/-- After reset, and after INIT in any state with the sequencer idle, the context holds the empty message. -/
def Obligations.NewContextHoldsEmptyMessage : Prop :=
  Represents State.reset [] ∧ ∀ s : State, s.Idle → ∃ t, exec .init s = .next t ∧ Represents t []

/-- ABSORB extends the message a context holds by its byte. -/
def Obligations.AbsorbExtendsMessage : Prop :=
  ∀ (s : State) (m : List Byte) (b : Byte), Represents s m →
    ∃ t, exec (.absorb b) s = .next t ∧ Represents t (m ++ [b])

/-- FINAL leaves the digest of the message a context holds (41_context_commands.md section 5). -/
def Obligations.FinalDigestsMessage : Prop :=
  ∀ (s : State) (m : List Byte), m.length < 2 ^ 61 → Represents s m →
    ∃ t, exec .final s = .next t ∧ Digested t m

/-- `DIGEST m` from any state with the sequencer idle: every response is OK, and the result is the twenty bytes of
`sha1(m)` (41_context_commands.md section 5). The driver is the model's host side (log 16). -/
def Obligations.DigestOfEveryMessage : Prop :=
  ∀ (s : State) (m : List Byte), m.length < 2 ^ 61 → s.Idle →
    ∃ t, driveDigest m s = (t, .data (sha1 m)) ∧ (sha1 m).length = 20 ∧ Digested t m

/-- A chunked update issues the words of the whole (30_encoding.md section 7). -/
def Obligations.UpdateIgnoresChunking : Prop :=
  ∀ chunks : List (List Byte), (chunks.map updateWords).flatten = updateWords chunks.flatten

/-- The unspecified and stale contents are never seen: two machines of the same context answer every command word
alike and stay the same context, whatever their scratch registers, their bytes of `BUF` at `BUFCNT` and above and their
free values (10_state.md sections 8 and 9). -/
def Obligations.ScratchIsNeverSeen : Prop :=
  ∀ (w : BitVec 16) (s s' : State), SameContext s s' → s.bufcnt.toNat ≤ 63 →
    ∃ t t', runWord w s = .next t ∧ runWord w s' = .next t' ∧ SameContext t t' ∧ t.rsp = t'.rsp

/-! The driver. -/

/-- `FINALIZE` (42_readout_commands.md): outside Finalized its result is the twenty bytes of the digest FINAL leaves, in
digest order, and the context stays in the state FINAL leaves it in, the last response at the port; in Finalized the driver
stops at the refused FINAL and reports it, no byte of the old digest read. The driver is the model's host side (log 16). -/
def Obligations.FinalizeReturnsDigestBytes : Prop :=
  (∀ s : State, s.Idle → s.st ≠ .finalized → s.bufcnt.toNat ≤ 63 → ∃ u : State,
    exec .final { s with inbox := [], rsp := none } = .next u ∧ u.st = .finalized ∧
    driveFinalize s =
      ({ u with rsp := some ((digestByte u.h 19).setWidth 16) }, .data ((List.range 20).map (digestByte u.h)))) ∧
  (∀ s : State, s.Idle → s.st = .finalized →
    driveFinalize s = ({ s with inbox := [], uerr := true, rsp := some 0x0100 }, .errorStatus 0x0100))

/-- An update with zero bytes issues no word and changes nothing in any state; the driver that checks STATUS first
reports the usage error in Finalized, having changed nothing but the response port, and reports none elsewhere
(41_context_commands.md section 5; the drivers are the model's host side, log 16). -/
def Obligations.EmptyUpdate : Prop :=
  (∀ s : State, drive (updateWords []) [] s = (s, .data [])) ∧
  (∀ s : State, s.Idle → ∃ t r, driveUpdate [] s = (t, r) ∧ t = { s with inbox := [], rsp := t.rsp } ∧
    r = if s.st = .finalized then .errorStatus 0x0100 else .data [])
end

