-- ==== Sys2Proof/Laws/State.lean ====
section
/-! SUPPORT. What each update of the state leaves in each field, by unfolding once, so that no later proof unfolds a
record update. -/
namespace Sys2Proof.Machine

/-! `setUerr`, `setIerr`, `clearErrors`. -/
@[simp] theorem setUerr_h (s : State) : (s.setUerr).h = s.h := rfl
@[simp] theorem setUerr_buf (s : State) : (s.setUerr).buf = s.buf := rfl
@[simp] theorem setUerr_bufcnt (s : State) : (s.setUerr).bufcnt = s.bufcnt := rfl
@[simp] theorem setUerr_len (s : State) : (s.setUerr).len = s.len := rfl
@[simp] theorem setUerr_st (s : State) : (s.setUerr).st = s.st := rfl
@[simp] theorem setUerr_uerr (s : State) : (s.setUerr).uerr = true := rfl
@[simp] theorem setUerr_ierr (s : State) : (s.setUerr).ierr = s.ierr := rfl
@[simp] theorem setUerr_wk (s : State) : (s.setUerr).wk = s.wk := rfl
@[simp] theorem setUerr_temp (s : State) : (s.setUerr).temp = s.temp := rfl
@[simp] theorem setUerr_w (s : State) : (s.setUerr).w = s.w := rfl
@[simp] theorem setUerr_phase (s : State) : (s.setUerr).phase = s.phase := rfl
@[simp] theorem setUerr_t (s : State) : (s.setUerr).t = s.t := rfl
@[simp] theorem setUerr_inbox (s : State) : (s.setUerr).inbox = s.inbox := rfl
@[simp] theorem setUerr_rsp (s : State) : (s.setUerr).rsp = s.rsp := rfl
@[simp] theorem setUerr_epoch (s : State) : (s.setUerr).epoch = s.epoch := rfl
@[simp] theorem setIerr_h (s : State) : (s.setIerr).h = s.h := rfl
@[simp] theorem setIerr_buf (s : State) : (s.setIerr).buf = s.buf := rfl
@[simp] theorem setIerr_bufcnt (s : State) : (s.setIerr).bufcnt = s.bufcnt := rfl
@[simp] theorem setIerr_len (s : State) : (s.setIerr).len = s.len := rfl
@[simp] theorem setIerr_st (s : State) : (s.setIerr).st = s.st := rfl
@[simp] theorem setIerr_uerr (s : State) : (s.setIerr).uerr = s.uerr := rfl
@[simp] theorem setIerr_ierr (s : State) : (s.setIerr).ierr = true := rfl
@[simp] theorem setIerr_wk (s : State) : (s.setIerr).wk = s.wk := rfl
@[simp] theorem setIerr_temp (s : State) : (s.setIerr).temp = s.temp := rfl
@[simp] theorem setIerr_w (s : State) : (s.setIerr).w = s.w := rfl
@[simp] theorem setIerr_phase (s : State) : (s.setIerr).phase = s.phase := rfl
@[simp] theorem setIerr_t (s : State) : (s.setIerr).t = s.t := rfl
@[simp] theorem setIerr_inbox (s : State) : (s.setIerr).inbox = s.inbox := rfl
@[simp] theorem setIerr_rsp (s : State) : (s.setIerr).rsp = s.rsp := rfl
@[simp] theorem setIerr_epoch (s : State) : (s.setIerr).epoch = s.epoch := rfl
@[simp] theorem clearErrors_h (s : State) : (s.clearErrors).h = s.h := rfl
@[simp] theorem clearErrors_buf (s : State) : (s.clearErrors).buf = s.buf := rfl
@[simp] theorem clearErrors_bufcnt (s : State) : (s.clearErrors).bufcnt = s.bufcnt := rfl
@[simp] theorem clearErrors_len (s : State) : (s.clearErrors).len = s.len := rfl
@[simp] theorem clearErrors_st (s : State) : (s.clearErrors).st = s.st := rfl
@[simp] theorem clearErrors_uerr (s : State) : (s.clearErrors).uerr = false := rfl
@[simp] theorem clearErrors_ierr (s : State) : (s.clearErrors).ierr = false := rfl
@[simp] theorem clearErrors_wk (s : State) : (s.clearErrors).wk = s.wk := rfl
@[simp] theorem clearErrors_temp (s : State) : (s.clearErrors).temp = s.temp := rfl
@[simp] theorem clearErrors_w (s : State) : (s.clearErrors).w = s.w := rfl
@[simp] theorem clearErrors_phase (s : State) : (s.clearErrors).phase = s.phase := rfl
@[simp] theorem clearErrors_t (s : State) : (s.clearErrors).t = s.t := rfl
@[simp] theorem clearErrors_inbox (s : State) : (s.clearErrors).inbox = s.inbox := rfl
@[simp] theorem clearErrors_rsp (s : State) : (s.clearErrors).rsp = s.rsp := rfl
@[simp] theorem clearErrors_epoch (s : State) : (s.clearErrors).epoch = s.epoch := rfl

/-! `writeBuf`. -/
@[simp] theorem writeBuf_h (a : Nat) (v : Byte) (s : State) : (writeBuf s a v).h = s.h := rfl
@[simp] theorem writeBuf_buf (a : Nat) (v : Byte) (s : State) : (writeBuf s a v).buf = Memory.write a v s.buf := rfl
@[simp] theorem writeBuf_bufcnt (a : Nat) (v : Byte) (s : State) : (writeBuf s a v).bufcnt = s.bufcnt := rfl
@[simp] theorem writeBuf_len (a : Nat) (v : Byte) (s : State) : (writeBuf s a v).len = s.len := rfl
@[simp] theorem writeBuf_st (a : Nat) (v : Byte) (s : State) : (writeBuf s a v).st = s.st := rfl
@[simp] theorem writeBuf_uerr (a : Nat) (v : Byte) (s : State) : (writeBuf s a v).uerr = s.uerr := rfl
@[simp] theorem writeBuf_ierr (a : Nat) (v : Byte) (s : State) : (writeBuf s a v).ierr = s.ierr := rfl
@[simp] theorem writeBuf_wk (a : Nat) (v : Byte) (s : State) : (writeBuf s a v).wk = s.wk := rfl
@[simp] theorem writeBuf_temp (a : Nat) (v : Byte) (s : State) : (writeBuf s a v).temp = s.temp := rfl
@[simp] theorem writeBuf_w (a : Nat) (v : Byte) (s : State) : (writeBuf s a v).w = s.w := rfl
@[simp] theorem writeBuf_phase (a : Nat) (v : Byte) (s : State) : (writeBuf s a v).phase = s.phase := rfl
@[simp] theorem writeBuf_t (a : Nat) (v : Byte) (s : State) : (writeBuf s a v).t = s.t := rfl
@[simp] theorem writeBuf_inbox (a : Nat) (v : Byte) (s : State) : (writeBuf s a v).inbox = s.inbox := rfl
@[simp] theorem writeBuf_rsp (a : Nat) (v : Byte) (s : State) : (writeBuf s a v).rsp = s.rsp := rfl
@[simp] theorem writeBuf_epoch (a : Nat) (v : Byte) (s : State) : (writeBuf s a v).epoch = s.epoch := rfl

/-! `storeByte`. -/
@[simp] theorem storeByte_h (b : Byte) (s : State) : (storeByte b s).h = s.h := rfl
@[simp] theorem storeByte_buf (b : Byte) (s : State) : (storeByte b s).buf = Memory.write s.bufcnt.toNat b s.buf := rfl
@[simp] theorem storeByte_bufcnt (b : Byte) (s : State) : (storeByte b s).bufcnt = s.bufcnt + 1 := rfl
@[simp] theorem storeByte_len (b : Byte) (s : State) : (storeByte b s).len = s.len := rfl
@[simp] theorem storeByte_st (b : Byte) (s : State) : (storeByte b s).st = s.st := rfl
@[simp] theorem storeByte_uerr (b : Byte) (s : State) : (storeByte b s).uerr = s.uerr := rfl
@[simp] theorem storeByte_ierr (b : Byte) (s : State) : (storeByte b s).ierr = s.ierr := rfl
@[simp] theorem storeByte_wk (b : Byte) (s : State) : (storeByte b s).wk = s.wk := rfl
@[simp] theorem storeByte_temp (b : Byte) (s : State) : (storeByte b s).temp = s.temp := rfl
@[simp] theorem storeByte_w (b : Byte) (s : State) : (storeByte b s).w = s.w := rfl
@[simp] theorem storeByte_phase (b : Byte) (s : State) : (storeByte b s).phase = s.phase := rfl
@[simp] theorem storeByte_t (b : Byte) (s : State) : (storeByte b s).t = s.t := rfl
@[simp] theorem storeByte_inbox (b : Byte) (s : State) : (storeByte b s).inbox = s.inbox := rfl
@[simp] theorem storeByte_rsp (b : Byte) (s : State) : (storeByte b s).rsp = s.rsp := rfl
@[simp] theorem storeByte_epoch (b : Byte) (s : State) : (storeByte b s).epoch = s.epoch := rfl

/-! `respond`. -/
@[simp] theorem respond_h (status : RspStatus) (data : Byte) (s : State) : (respond status data s).h = s.h := rfl
@[simp] theorem respond_buf (status : RspStatus) (data : Byte) (s : State) : (respond status data s).buf = s.buf := rfl
@[simp] theorem respond_bufcnt (status : RspStatus) (data : Byte) (s : State) : (respond status data s).bufcnt = s.bufcnt := rfl
@[simp] theorem respond_len (status : RspStatus) (data : Byte) (s : State) : (respond status data s).len = s.len := rfl
@[simp] theorem respond_st (status : RspStatus) (data : Byte) (s : State) : (respond status data s).st = s.st := rfl
@[simp] theorem respond_uerr (status : RspStatus) (data : Byte) (s : State) : (respond status data s).uerr = s.uerr := rfl
@[simp] theorem respond_ierr (status : RspStatus) (data : Byte) (s : State) : (respond status data s).ierr = s.ierr := rfl
@[simp] theorem respond_wk (status : RspStatus) (data : Byte) (s : State) : (respond status data s).wk = s.wk := rfl
@[simp] theorem respond_temp (status : RspStatus) (data : Byte) (s : State) : (respond status data s).temp = s.temp := rfl
@[simp] theorem respond_w (status : RspStatus) (data : Byte) (s : State) : (respond status data s).w = s.w := rfl
@[simp] theorem respond_phase (status : RspStatus) (data : Byte) (s : State) : (respond status data s).phase = s.phase := rfl
@[simp] theorem respond_t (status : RspStatus) (data : Byte) (s : State) : (respond status data s).t = s.t := rfl
@[simp] theorem respond_inbox (status : RspStatus) (data : Byte) (s : State) : (respond status data s).inbox = s.inbox := rfl
@[simp] theorem respond_rsp (status : RspStatus) (data : Byte) (s : State) : (respond status data s).rsp = some (rspWord status data) := rfl
@[simp] theorem respond_epoch (status : RspStatus) (data : Byte) (s : State) : (respond status data s).epoch = s.epoch := rfl

/-! `raise`, by its cause. -/
@[simp] theorem raise_usage_h (s : State) : (raise .usageError s).h = s.h := rfl
@[simp] theorem raise_usage_buf (s : State) : (raise .usageError s).buf = s.buf := rfl
@[simp] theorem raise_usage_bufcnt (s : State) : (raise .usageError s).bufcnt = s.bufcnt := rfl
@[simp] theorem raise_usage_len (s : State) : (raise .usageError s).len = s.len := rfl
@[simp] theorem raise_usage_st (s : State) : (raise .usageError s).st = s.st := rfl
@[simp] theorem raise_usage_uerr (s : State) : (raise .usageError s).uerr = true := rfl
@[simp] theorem raise_usage_ierr (s : State) : (raise .usageError s).ierr = s.ierr := rfl
@[simp] theorem raise_usage_wk (s : State) : (raise .usageError s).wk = s.wk := rfl
@[simp] theorem raise_usage_temp (s : State) : (raise .usageError s).temp = s.temp := rfl
@[simp] theorem raise_usage_w (s : State) : (raise .usageError s).w = s.w := rfl
@[simp] theorem raise_usage_phase (s : State) : (raise .usageError s).phase = s.phase := rfl
@[simp] theorem raise_usage_t (s : State) : (raise .usageError s).t = s.t := rfl
@[simp] theorem raise_usage_inbox (s : State) : (raise .usageError s).inbox = s.inbox := rfl
@[simp] theorem raise_usage_rsp (s : State) : (raise .usageError s).rsp = some (rspWord .usage 0) := rfl
@[simp] theorem raise_usage_epoch (s : State) : (raise .usageError s).epoch = s.epoch := rfl
@[simp] theorem raise_illegal_h (s : State) : (raise .illegalCommand s).h = s.h := rfl
@[simp] theorem raise_illegal_buf (s : State) : (raise .illegalCommand s).buf = s.buf := rfl
@[simp] theorem raise_illegal_bufcnt (s : State) : (raise .illegalCommand s).bufcnt = s.bufcnt := rfl
@[simp] theorem raise_illegal_len (s : State) : (raise .illegalCommand s).len = s.len := rfl
@[simp] theorem raise_illegal_st (s : State) : (raise .illegalCommand s).st = s.st := rfl
@[simp] theorem raise_illegal_uerr (s : State) : (raise .illegalCommand s).uerr = s.uerr := rfl
@[simp] theorem raise_illegal_ierr (s : State) : (raise .illegalCommand s).ierr = true := rfl
@[simp] theorem raise_illegal_wk (s : State) : (raise .illegalCommand s).wk = s.wk := rfl
@[simp] theorem raise_illegal_temp (s : State) : (raise .illegalCommand s).temp = s.temp := rfl
@[simp] theorem raise_illegal_w (s : State) : (raise .illegalCommand s).w = s.w := rfl
@[simp] theorem raise_illegal_phase (s : State) : (raise .illegalCommand s).phase = s.phase := rfl
@[simp] theorem raise_illegal_t (s : State) : (raise .illegalCommand s).t = s.t := rfl
@[simp] theorem raise_illegal_inbox (s : State) : (raise .illegalCommand s).inbox = s.inbox := rfl
@[simp] theorem raise_illegal_rsp (s : State) : (raise .illegalCommand s).rsp = some (rspWord .illegal 0) := rfl
@[simp] theorem raise_illegal_epoch (s : State) : (raise .illegalCommand s).epoch = s.epoch := rfl

/-! `setPosition`. -/
@[simp] theorem setPosition_h (pos : Phase × BitVec 7) (s : State) : (s.setPosition pos).h = s.h := rfl
@[simp] theorem setPosition_buf (pos : Phase × BitVec 7) (s : State) : (s.setPosition pos).buf = s.buf := rfl
@[simp] theorem setPosition_bufcnt (pos : Phase × BitVec 7) (s : State) : (s.setPosition pos).bufcnt = s.bufcnt := rfl
@[simp] theorem setPosition_len (pos : Phase × BitVec 7) (s : State) : (s.setPosition pos).len = s.len := rfl
@[simp] theorem setPosition_st (pos : Phase × BitVec 7) (s : State) : (s.setPosition pos).st = s.st := rfl
@[simp] theorem setPosition_uerr (pos : Phase × BitVec 7) (s : State) : (s.setPosition pos).uerr = s.uerr := rfl
@[simp] theorem setPosition_ierr (pos : Phase × BitVec 7) (s : State) : (s.setPosition pos).ierr = s.ierr := rfl
@[simp] theorem setPosition_wk (pos : Phase × BitVec 7) (s : State) : (s.setPosition pos).wk = s.wk := rfl
@[simp] theorem setPosition_temp (pos : Phase × BitVec 7) (s : State) : (s.setPosition pos).temp = s.temp := rfl
@[simp] theorem setPosition_w (pos : Phase × BitVec 7) (s : State) : (s.setPosition pos).w = s.w := rfl
@[simp] theorem setPosition_phase (pos : Phase × BitVec 7) (s : State) : (s.setPosition pos).phase = pos.1 := rfl
@[simp] theorem setPosition_t (pos : Phase × BitVec 7) (s : State) : (s.setPosition pos).t = pos.2 := rfl
@[simp] theorem setPosition_inbox (pos : Phase × BitVec 7) (s : State) : (s.setPosition pos).inbox = s.inbox := rfl
@[simp] theorem setPosition_rsp (pos : Phase × BitVec 7) (s : State) : (s.setPosition pos).rsp = s.rsp := rfl
@[simp] theorem setPosition_epoch (pos : Phase × BitVec 7) (s : State) : (s.setPosition pos).epoch = s.epoch := rfl

/-! `takeInput`. -/
@[simp] theorem takeInput_h (s : State) : (s.takeInput).h = s.h := rfl
@[simp] theorem takeInput_buf (s : State) : (s.takeInput).buf = s.buf := rfl
@[simp] theorem takeInput_bufcnt (s : State) : (s.takeInput).bufcnt = s.bufcnt := rfl
@[simp] theorem takeInput_len (s : State) : (s.takeInput).len = s.len := rfl
@[simp] theorem takeInput_st (s : State) : (s.takeInput).st = s.st := rfl
@[simp] theorem takeInput_uerr (s : State) : (s.takeInput).uerr = s.uerr := rfl
@[simp] theorem takeInput_ierr (s : State) : (s.takeInput).ierr = s.ierr := rfl
@[simp] theorem takeInput_wk (s : State) : (s.takeInput).wk = s.wk := rfl
@[simp] theorem takeInput_temp (s : State) : (s.takeInput).temp = s.temp := rfl
@[simp] theorem takeInput_w (s : State) : (s.takeInput).w = s.w := rfl
@[simp] theorem takeInput_phase (s : State) : (s.takeInput).phase = s.phase := rfl
@[simp] theorem takeInput_t (s : State) : (s.takeInput).t = s.t := rfl
@[simp] theorem takeInput_inbox (s : State) : (s.takeInput).inbox = s.inbox.tail := rfl
@[simp] theorem takeInput_rsp (s : State) : (s.takeInput).rsp = none := rfl
@[simp] theorem takeInput_epoch (s : State) : (s.takeInput).epoch = s.epoch := rfl

/-! `applyReset`. -/
@[simp] theorem applyReset_h (s : State) : (applyReset s).h = Config.iv := rfl
@[simp] theorem applyReset_buf (s : State) : (applyReset s).buf = [] := rfl
@[simp] theorem applyReset_bufcnt (s : State) : (applyReset s).bufcnt = 0 := rfl
@[simp] theorem applyReset_len (s : State) : (applyReset s).len = 0 := rfl
@[simp] theorem applyReset_st (s : State) : (applyReset s).st = .empty := rfl
@[simp] theorem applyReset_uerr (s : State) : (applyReset s).uerr = false := rfl
@[simp] theorem applyReset_ierr (s : State) : (applyReset s).ierr = false := rfl
@[simp] theorem applyReset_temp (s : State) : (applyReset s).temp = Config.resetTemp (s.epoch + 1) := rfl
@[simp] theorem applyReset_phase (s : State) : (applyReset s).phase = .idle := rfl
@[simp] theorem applyReset_t (s : State) : (applyReset s).t = 0 := rfl
@[simp] theorem applyReset_inbox (s : State) : (applyReset s).inbox = s.inbox.tail := rfl
@[simp] theorem applyReset_rsp (s : State) : (applyReset s).rsp = none := rfl
@[simp] theorem applyReset_epoch (s : State) : (applyReset s).epoch = s.epoch + 1 := rfl

/-! The micro-operations. -/
@[simp] theorem loadOp_h (j : Nat) (s : State) : (loadOp j s).h = s.h := rfl
@[simp] theorem loadOp_buf (j : Nat) (s : State) : (loadOp j s).buf = s.buf := rfl
@[simp] theorem loadOp_bufcnt (j : Nat) (s : State) : (loadOp j s).bufcnt = s.bufcnt := rfl
@[simp] theorem loadOp_len (j : Nat) (s : State) : (loadOp j s).len = s.len := rfl
@[simp] theorem loadOp_st (j : Nat) (s : State) : (loadOp j s).st = s.st := rfl
@[simp] theorem loadOp_uerr (j : Nat) (s : State) : (loadOp j s).uerr = s.uerr := rfl
@[simp] theorem loadOp_ierr (j : Nat) (s : State) : (loadOp j s).ierr = s.ierr := rfl
@[simp] theorem loadOp_wk (j : Nat) (s : State) : (loadOp j s).wk = s.wk := rfl
@[simp] theorem loadOp_temp (j : Nat) (s : State) : (loadOp j s).temp = s.temp := rfl
@[simp] theorem loadOp_w (j : Nat) (s : State) : (loadOp j s).w = s.w.setIfInBounds j (readBuf4 s (4 * j)) := rfl
@[simp] theorem loadOp_phase (j : Nat) (s : State) : (loadOp j s).phase = (nextPosition .load j).1 := rfl
@[simp] theorem loadOp_t (j : Nat) (s : State) : (loadOp j s).t = (nextPosition .load j).2 := rfl
@[simp] theorem loadOp_inbox (j : Nat) (s : State) : (loadOp j s).inbox = s.inbox := rfl
@[simp] theorem loadOp_rsp (j : Nat) (s : State) : (loadOp j s).rsp = s.rsp := rfl
@[simp] theorem loadOp_epoch (j : Nat) (s : State) : (loadOp j s).epoch = s.epoch := rfl
@[simp] theorem expandOp_h (k : Nat) (s : State) : (expandOp k s).h = s.h := rfl
@[simp] theorem expandOp_buf (k : Nat) (s : State) : (expandOp k s).buf = s.buf := rfl
@[simp] theorem expandOp_bufcnt (k : Nat) (s : State) : (expandOp k s).bufcnt = s.bufcnt := rfl
@[simp] theorem expandOp_len (k : Nat) (s : State) : (expandOp k s).len = s.len := rfl
@[simp] theorem expandOp_st (k : Nat) (s : State) : (expandOp k s).st = s.st := rfl
@[simp] theorem expandOp_uerr (k : Nat) (s : State) : (expandOp k s).uerr = s.uerr := rfl
@[simp] theorem expandOp_ierr (k : Nat) (s : State) : (expandOp k s).ierr = s.ierr := rfl
@[simp] theorem expandOp_wk (k : Nat) (s : State) : (expandOp k s).wk = s.wk := rfl
@[simp] theorem expandOp_temp (k : Nat) (s : State) : (expandOp k s).temp = s.temp := rfl
@[simp] theorem expandOp_w (k : Nat) (s : State) : (expandOp k s).w = s.w.setIfInBounds k (expandWord s.w k) := rfl
@[simp] theorem expandOp_phase (k : Nat) (s : State) : (expandOp k s).phase = (nextPosition .expand k).1 := rfl
@[simp] theorem expandOp_t (k : Nat) (s : State) : (expandOp k s).t = (nextPosition .expand k).2 := rfl
@[simp] theorem expandOp_inbox (k : Nat) (s : State) : (expandOp k s).inbox = s.inbox := rfl
@[simp] theorem expandOp_rsp (k : Nat) (s : State) : (expandOp k s).rsp = s.rsp := rfl
@[simp] theorem expandOp_epoch (k : Nat) (s : State) : (expandOp k s).epoch = s.epoch := rfl
@[simp] theorem seedOp_h (s : State) : (seedOp s).h = s.h := rfl
@[simp] theorem seedOp_buf (s : State) : (seedOp s).buf = s.buf := rfl
@[simp] theorem seedOp_bufcnt (s : State) : (seedOp s).bufcnt = s.bufcnt := rfl
@[simp] theorem seedOp_len (s : State) : (seedOp s).len = s.len := rfl
@[simp] theorem seedOp_st (s : State) : (seedOp s).st = s.st := rfl
@[simp] theorem seedOp_uerr (s : State) : (seedOp s).uerr = s.uerr := rfl
@[simp] theorem seedOp_ierr (s : State) : (seedOp s).ierr = s.ierr := rfl
@[simp] theorem seedOp_wk (s : State) : (seedOp s).wk = seedWorking s.h := rfl
@[simp] theorem seedOp_temp (s : State) : (seedOp s).temp = s.temp := rfl
@[simp] theorem seedOp_w (s : State) : (seedOp s).w = s.w := rfl
@[simp] theorem seedOp_phase (s : State) : (seedOp s).phase = .round := rfl
@[simp] theorem seedOp_t (s : State) : (seedOp s).t = 0 := rfl
@[simp] theorem seedOp_inbox (s : State) : (seedOp s).inbox = s.inbox := rfl
@[simp] theorem seedOp_rsp (s : State) : (seedOp s).rsp = s.rsp := rfl
@[simp] theorem seedOp_epoch (s : State) : (seedOp s).epoch = s.epoch := rfl
@[simp] theorem roundOp_h (k : Nat) (s : State) : (roundOp k s).h = s.h := rfl
@[simp] theorem roundOp_buf (k : Nat) (s : State) : (roundOp k s).buf = s.buf := rfl
@[simp] theorem roundOp_bufcnt (k : Nat) (s : State) : (roundOp k s).bufcnt = s.bufcnt := rfl
@[simp] theorem roundOp_len (k : Nat) (s : State) : (roundOp k s).len = s.len := rfl
@[simp] theorem roundOp_st (k : Nat) (s : State) : (roundOp k s).st = s.st := rfl
@[simp] theorem roundOp_uerr (k : Nat) (s : State) : (roundOp k s).uerr = s.uerr := rfl
@[simp] theorem roundOp_ierr (k : Nat) (s : State) : (roundOp k s).ierr = s.ierr := rfl
@[simp] theorem roundOp_wk (k : Nat) (s : State) : (roundOp k s).wk = roundStep k (wordAt s.w k) s.wk := rfl
@[simp] theorem roundOp_temp (k : Nat) (s : State) : (roundOp k s).temp = roundTemp k (wordAt s.w k) s.wk := rfl
@[simp] theorem roundOp_w (k : Nat) (s : State) : (roundOp k s).w = s.w := rfl
@[simp] theorem roundOp_phase (k : Nat) (s : State) : (roundOp k s).phase = (nextPosition .round k).1 := rfl
@[simp] theorem roundOp_t (k : Nat) (s : State) : (roundOp k s).t = (nextPosition .round k).2 := rfl
@[simp] theorem roundOp_inbox (k : Nat) (s : State) : (roundOp k s).inbox = s.inbox := rfl
@[simp] theorem roundOp_rsp (k : Nat) (s : State) : (roundOp k s).rsp = s.rsp := rfl
@[simp] theorem roundOp_epoch (k : Nat) (s : State) : (roundOp k s).epoch = s.epoch := rfl
@[simp] theorem foldOp_h (s : State) : (foldOp s).h = foldChain s.h s.wk := rfl
@[simp] theorem foldOp_buf (s : State) : (foldOp s).buf = s.buf := rfl
@[simp] theorem foldOp_bufcnt (s : State) : (foldOp s).bufcnt = s.bufcnt := rfl
@[simp] theorem foldOp_len (s : State) : (foldOp s).len = s.len := rfl
@[simp] theorem foldOp_st (s : State) : (foldOp s).st = s.st := rfl
@[simp] theorem foldOp_uerr (s : State) : (foldOp s).uerr = s.uerr := rfl
@[simp] theorem foldOp_ierr (s : State) : (foldOp s).ierr = s.ierr := rfl
@[simp] theorem foldOp_wk (s : State) : (foldOp s).wk = s.wk := rfl
@[simp] theorem foldOp_temp (s : State) : (foldOp s).temp = s.temp := rfl
@[simp] theorem foldOp_w (s : State) : (foldOp s).w = s.w := rfl
@[simp] theorem foldOp_phase (s : State) : (foldOp s).phase = .idle := rfl
@[simp] theorem foldOp_t (s : State) : (foldOp s).t = 0 := rfl
@[simp] theorem foldOp_inbox (s : State) : (foldOp s).inbox = s.inbox := rfl
@[simp] theorem foldOp_rsp (s : State) : (foldOp s).rsp = s.rsp := rfl
@[simp] theorem foldOp_epoch (s : State) : (foldOp s).epoch = s.epoch := rfl

end Sys2Proof.Machine
end

