-- ==== Sys2Proof/Laws/Memory.lean ====
section
/-! SUPPORT. The laws of the memory `BUF`: a write is read back, leaves every other cell alone, and keeps the
canonical form. -/
namespace Sys2Proof.Machine

@[simp] theorem lookup_nil (a : Nat) : Memory.lookup a [] = none := rfl

theorem lookup_write_same (m : Memory) (a : Nat) (v : Byte) : Memory.lookup a (Memory.write a v m) = some v := by
  induction m with
  | nil => simp [Memory.write, Memory.lookup]
  | cons cell rest ih =>
    obtain ⟨k, u⟩ := cell
    by_cases h1 : a < k
    · simp [Memory.write, h1, Memory.lookup]
    · by_cases h2 : a = k
      · simp [Memory.write, h2, Memory.lookup]
      · have h3 : ¬ k = a := fun h => h2 h.symm
        simp [Memory.write, h1, h2, Memory.lookup, h3, ih]

theorem lookup_write_other (m : Memory) {a b : Nat} (v : Byte) (hab : a ≠ b) :
    Memory.lookup b (Memory.write a v m) = Memory.lookup b m := by
  induction m with
  | nil => simp [Memory.write, Memory.lookup, hab]
  | cons cell rest ih =>
    obtain ⟨k, u⟩ := cell
    by_cases h1 : a < k
    · simp [Memory.write, h1, Memory.lookup, hab]
    · by_cases h2 : a = k
      · subst h2
        simp [Memory.write, Memory.lookup, hab]
      · by_cases h3 : k = b
        · subst h3
          simp [Memory.write, h1, h2, Memory.lookup]
        · simp [Memory.write, h1, h2, Memory.lookup, h3, ih]

theorem lookup_write (m : Memory) (a b : Nat) (v : Byte) :
    Memory.lookup b (Memory.write a v m) = if b = a then some v else Memory.lookup b m := by
  by_cases h : b = a
  · simp [h, lookup_write_same]
  · simp [h, lookup_write_other m v (Ne.symm h)]

/-- The canonical form as a proposition. -/
theorem wf_iff (m : Memory) :
    Memory.wf m = true ↔ m.Pairwise (fun x y => x.1 < y.1) ∧ ∀ c ∈ m, c.1 < 64 := by
  simp [Memory.wf]

theorem wf_nil : Memory.wf [] = true := by decide

/-- A cell of a memory after a write is the written one or was there before. -/
theorem mem_write {m : Memory} {a : Nat} {v : Byte} {c : Host.Cell} (hc : c ∈ Memory.write a v m) :
    c = (a, v) ∨ c ∈ m := by
  induction m with
  | nil => simpa [Memory.write] using hc
  | cons cell rest ih =>
    obtain ⟨k, u⟩ := cell
    by_cases h1 : a < k
    · simpa [Memory.write, h1] using hc
    · by_cases h2 : a = k
      · simp only [Memory.write, h2, if_false, if_true, lt_irrefl, List.mem_cons] at hc ⊢
        tauto
      · simp only [Memory.write, h1, h2, if_false, List.mem_cons] at hc ⊢
        rcases hc with h | h
        · exact .inr (.inl h)
        · rcases ih h with h' | h'
          · exact .inl h'
          · exact .inr (.inr h')

theorem rising_write {m : Memory} (a : Nat) (v : Byte) (hm : m.Pairwise fun x y => x.1 < y.1) :
    (Memory.write a v m).Pairwise fun x y => x.1 < y.1 := by
  induction m with
  | nil => simp [Memory.write]
  | cons cell rest ih =>
    obtain ⟨k, u⟩ := cell
    have hk := (List.pairwise_cons.mp hm).1
    have hr := (List.pairwise_cons.mp hm).2
    by_cases h1 : a < k
    · simp only [Memory.write, h1, if_true]
      refine List.pairwise_cons.mpr ⟨?_, hm⟩
      intro c hc
      rcases List.mem_cons.mp hc with rfl | hc'
      · exact h1
      · exact lt_trans h1 (hk c hc')
    · by_cases h2 : a = k
      · subst h2
        simp only [Memory.write, lt_irrefl, if_false, if_true]
        exact List.pairwise_cons.mpr ⟨hk, hr⟩
      · simp only [Memory.write, h1, h2, if_false]
        refine List.pairwise_cons.mpr ⟨?_, ih hr⟩
        intro c hc
        rcases mem_write hc with rfl | hc'
        · exact lt_of_le_of_ne (Nat.le_of_not_lt h1) (Ne.symm h2)
        · exact hk c hc'

/-- A write inside the 64 cells keeps the canonical form. -/
theorem wf_write {m : Memory} {a : Nat} (v : Byte) (ha : a < 64) (hm : Memory.wf m = true) :
    Memory.wf (Memory.write a v m) = true := by
  rw [wf_iff] at hm ⊢
  refine ⟨rising_write a v hm.1, ?_⟩
  intro c hc
  rcases mem_write hc with rfl | hc'
  · exact ha
  · exact hm.2 c hc'

/-- A written cell stays written. -/
theorem lookup_write_ne_none {m : Memory} {a b : Nat} (v : Byte) (h : Memory.lookup b m ≠ none) :
    Memory.lookup b (Memory.write a v m) ≠ none := by
  rw [lookup_write]
  split
  · simp
  · exact h

/-- Reading one byte depends on the memory and the reset count alone. -/
theorem readBuf_congr {s s' : State} (hbuf : s'.buf = s.buf) (hepoch : s'.epoch = s.epoch) (a : Nat) :
    readBuf s' a = readBuf s a := by
  simp [readBuf, hbuf, hepoch]

theorem readBuf4_congr {s s' : State} (hbuf : s'.buf = s.buf) (hepoch : s'.epoch = s.epoch) (a : Nat) :
    readBuf4 s' a = readBuf4 s a := by
  simp [readBuf4, readBuf_congr hbuf hepoch]

/-- Reading one byte after a write. -/
theorem readBuf_writeBuf (s : State) (a b : Nat) (v : Byte) :
    readBuf (writeBuf s a v) b = if b = a then v else readBuf s b := by
  simp only [readBuf, writeBuf_buf, writeBuf_epoch, lookup_write]
  by_cases h : b = a <;> simp [h]

theorem readBuf_storeByte (s : State) (b : Byte) (a : Nat) :
    readBuf (storeByte b s) a = if a = s.bufcnt.toNat then b else readBuf s a := by
  rw [← readBuf_writeBuf s s.bufcnt.toNat a b]
  exact readBuf_congr (by simp) (by simp) a

end Sys2Proof.Machine
end

