-- ==== Sys2Proof/Laws/Block.lean ====
section
/-! SUPPORT. What the sequence of one block leaves unchanged (40_compression_core.md R90, R99). -/
namespace Sys2Proof.Machine

/-- Equal but for the chaining value, the scratch registers and the sequencer position. -/
def SameOutsideCore (s t : State) : Prop :=
  t.buf = s.buf ∧ t.bufcnt = s.bufcnt ∧ t.len = s.len ∧ t.st = s.st ∧ t.uerr = s.uerr ∧ t.ierr = s.ierr ∧
  t.inbox = s.inbox ∧ t.rsp = s.rsp ∧ t.epoch = s.epoch

theorem SameOutsideCore.refl (s : State) : SameOutsideCore s s := by simp [SameOutsideCore]

theorem SameOutsideCore.trans {s t u : State} (h : SameOutsideCore s t) (h' : SameOutsideCore t u) :
    SameOutsideCore s u := by
  simp_all [SameOutsideCore]

/-- A loop of operations that stay inside the core stays inside the core. -/
theorem foldl_sameOutsideCore (op : State → Nat → State) (hop : ∀ s k, SameOutsideCore s (op s k)) (ks : List Nat)
    (s : State) : SameOutsideCore s (ks.foldl op s) := by
  induction ks generalizing s with
  | nil => exact .refl s
  | cons k ks ih => exact (hop s k).trans (ih (op s k))

theorem loadOp_sameOutsideCore (j : Nat) (s : State) : SameOutsideCore s (loadOp j s) := by simp [SameOutsideCore]
theorem expandOp_sameOutsideCore (t : Nat) (s : State) : SameOutsideCore s (expandOp t s) := by simp [SameOutsideCore]
theorem seedOp_sameOutsideCore (s : State) : SameOutsideCore s (seedOp s) := by simp [SameOutsideCore]
theorem roundOp_sameOutsideCore (t : Nat) (s : State) : SameOutsideCore s (roundOp t s) := by simp [SameOutsideCore]
theorem foldOp_sameOutsideCore (s : State) : SameOutsideCore s (foldOp s) := by simp [SameOutsideCore]

/-- The block writes nothing outside the core. -/
theorem runBlock_sameOutsideCore (s : State) : SameOutsideCore s (runBlock s) := by
  have h0 : SameOutsideCore s (s.setPosition (.load, 0)) := by simp [SameOutsideCore]
  have h1 := foldl_sameOutsideCore (fun s j => loadOp j s) (fun s j => loadOp_sameOutsideCore j s) (List.range 16)
    (s.setPosition (.load, 0))
  have h2 := foldl_sameOutsideCore (fun s t => expandOp t s) (fun s t => expandOp_sameOutsideCore t s)
    (List.range' 16 64) ((List.range 16).foldl (fun s j => loadOp j s) (s.setPosition (.load, 0)))
  have h3 := seedOp_sameOutsideCore ((List.range' 16 64).foldl (fun s t => expandOp t s)
    ((List.range 16).foldl (fun s j => loadOp j s) (s.setPosition (.load, 0))))
  have h4 := foldl_sameOutsideCore (fun s t => roundOp t s) (fun s t => roundOp_sameOutsideCore t s) (List.range 80)
    (seedOp ((List.range' 16 64).foldl (fun s t => expandOp t s)
      ((List.range 16).foldl (fun s j => loadOp j s) (s.setPosition (.load, 0)))))
  exact ((((h0.trans h1).trans h2).trans h3).trans h4).trans (foldOp_sameOutsideCore _)

@[simp] theorem runBlock_buf (s : State) : (runBlock s).buf = s.buf := (runBlock_sameOutsideCore s).1
@[simp] theorem runBlock_bufcnt (s : State) : (runBlock s).bufcnt = s.bufcnt := (runBlock_sameOutsideCore s).2.1
@[simp] theorem runBlock_len (s : State) : (runBlock s).len = s.len := (runBlock_sameOutsideCore s).2.2.1
@[simp] theorem runBlock_st (s : State) : (runBlock s).st = s.st := (runBlock_sameOutsideCore s).2.2.2.1
@[simp] theorem runBlock_uerr (s : State) : (runBlock s).uerr = s.uerr := (runBlock_sameOutsideCore s).2.2.2.2.1
@[simp] theorem runBlock_ierr (s : State) : (runBlock s).ierr = s.ierr := (runBlock_sameOutsideCore s).2.2.2.2.2.1
@[simp] theorem runBlock_inbox (s : State) : (runBlock s).inbox = s.inbox := (runBlock_sameOutsideCore s).2.2.2.2.2.2.1
@[simp] theorem runBlock_rsp (s : State) : (runBlock s).rsp = s.rsp := (runBlock_sameOutsideCore s).2.2.2.2.2.2.2.1
@[simp] theorem runBlock_epoch (s : State) : (runBlock s).epoch = s.epoch := (runBlock_sameOutsideCore s).2.2.2.2.2.2.2.2
@[simp] theorem runBlock_phase (s : State) : (runBlock s).phase = .idle := rfl
@[simp] theorem runBlock_t (s : State) : (runBlock s).t = 0 := rfl

/-- Reading one byte of `BUF` after the block gives what it gave before. -/
theorem readBuf_runBlock (s : State) (a : Nat) : readBuf (runBlock s) a = readBuf s a :=
  readBuf_congr (runBlock_buf s) (runBlock_epoch s) a

end Sys2Proof.Machine
end

