-- ==== Sys2Proof/Laws/Feed.lean ====
section
/-! SUPPORT. What `feed` and the loops over it do (41_context_commands.md R120, R123). -/
namespace Sys2Proof.Machine

theorem canFeed_iff (s : State) : s.canFeed = true ↔ s.bufcnt.toNat ≤ 63 := by simp [State.canFeed]

/-- The count after a byte is stored, where the precondition of `feed` holds. -/
theorem storeByte_count (b : Byte) {s : State} (h : s.bufcnt.toNat ≤ 63) :
    (storeByte b s).bufcnt.toNat = s.bufcnt.toNat + 1 := by
  simp only [storeByte_bufcnt, BitVec.toNat_add]
  have : (1 : BitVec 7).toNat = 1 := rfl
  omega

/-- Before the 64th byte, `feed` only stores the byte. -/
theorem feed_of_lt (b : Byte) {s : State} (h : s.bufcnt.toNat < 63) : feed b s = storeByte b s := by
  have hc := storeByte_count b (Nat.le_of_lt h)
  have : (storeByte b s).bufcnt ≠ 64 := by
    intro he
    rw [he] at hc
    have : (64 : BitVec 7).toNat = 64 := rfl
    omega
  unfold feed; rw [if_neg this]

/-- The 64th byte fires the block feeder and drains the count. -/
theorem feed_of_full (b : Byte) {s : State} (h : s.bufcnt.toNat = 63) :
    feed b s = { runBlock (storeByte b s) with bufcnt := 0 } := by
  have hc := storeByte_count b (Nat.le_of_eq h)
  have : (storeByte b s).bufcnt = 64 := by
    apply BitVec.eq_of_toNat_eq
    rw [hc, h]; rfl
  unfold feed; rw [if_pos this]

/-! The fields after the 64th byte. -/
theorem feed_full_h (b : Byte) {s : State} (h : s.bufcnt.toNat = 63) : (feed b s).h = (runBlock (storeByte b s)).h := by
  rw [feed_of_full b h]
theorem feed_full_w (b : Byte) {s : State} (h : s.bufcnt.toNat = 63) : (feed b s).w = (runBlock (storeByte b s)).w := by
  rw [feed_of_full b h]
theorem feed_full_wk (b : Byte) {s : State} (h : s.bufcnt.toNat = 63) : (feed b s).wk = (runBlock (storeByte b s)).wk := by
  rw [feed_of_full b h]
theorem feed_full_temp (b : Byte) {s : State} (h : s.bufcnt.toNat = 63) :
    (feed b s).temp = (runBlock (storeByte b s)).temp := by
  rw [feed_of_full b h]
theorem feed_full_bufcnt (b : Byte) {s : State} (h : s.bufcnt.toNat = 63) : (feed b s).bufcnt = 0 := by
  rw [feed_of_full b h]
theorem feed_full_phase (b : Byte) {s : State} (h : s.bufcnt.toNat = 63) : (feed b s).phase = .idle := by
  rw [feed_of_full b h, ← runBlock_phase (storeByte b s)]
theorem feed_full_t (b : Byte) {s : State} (h : s.bufcnt.toNat = 63) : (feed b s).t = 0 := by
  rw [feed_of_full b h, ← runBlock_t (storeByte b s)]

/-- The count after `feed`. -/
theorem feed_count (b : Byte) {s : State} (h : s.bufcnt.toNat ≤ 63) :
    (feed b s).bufcnt.toNat = (s.bufcnt.toNat + 1) % 64 := by
  rcases Nat.lt_or_ge s.bufcnt.toNat 63 with hlt | hge
  · rw [feed_of_lt b hlt, storeByte_count b h]; omega
  · have : s.bufcnt.toNat = 63 := Nat.le_antisymm h hge
    rw [feed_of_full b this, this]; rfl

/-- The postcondition of `feed` is its precondition. -/
theorem feed_count_le (b : Byte) {s : State} (h : s.bufcnt.toNat ≤ 63) : (feed b s).bufcnt.toNat ≤ 63 := by
  rw [feed_count b h]; omega

@[simp] theorem feed_len (b : Byte) (s : State) : (feed b s).len = s.len := by unfold feed; split <;> simp
@[simp] theorem feed_st (b : Byte) (s : State) : (feed b s).st = s.st := by unfold feed; split <;> simp
@[simp] theorem feed_uerr (b : Byte) (s : State) : (feed b s).uerr = s.uerr := by unfold feed; split <;> simp
@[simp] theorem feed_ierr (b : Byte) (s : State) : (feed b s).ierr = s.ierr := by unfold feed; split <;> simp
@[simp] theorem feed_inbox (b : Byte) (s : State) : (feed b s).inbox = s.inbox := by unfold feed; split <;> simp
@[simp] theorem feed_rsp (b : Byte) (s : State) : (feed b s).rsp = s.rsp := by unfold feed; split <;> simp
@[simp] theorem feed_epoch (b : Byte) (s : State) : (feed b s).epoch = s.epoch := by unfold feed; split <;> simp

/-- `feed` writes the one cell at the count. -/
@[simp] theorem feed_buf (b : Byte) (s : State) : (feed b s).buf = Memory.write s.bufcnt.toNat b s.buf := by
  unfold feed; split <;> simp

theorem readBuf_feed (b : Byte) (s : State) (a : Nat) :
    readBuf (feed b s) a = if a = s.bufcnt.toNat then b else readBuf s a := by
  rw [← readBuf_storeByte s b a]
  exact readBuf_congr (by simp) (by simp) a

/-- `feed` leaves the sequencer idle when it was. -/
theorem feed_idle (b : Byte) {s : State} (h : s.phase = .idle ∧ s.t = 0) :
    (feed b s).phase = .idle ∧ (feed b s).t = 0 := by
  unfold feed; split <;> simp [h]

/-- `feed` keeps the canonical form of the memory. -/
theorem feed_wf (b : Byte) {s : State} (h : s.bufcnt.toNat ≤ 63) (hm : Memory.wf s.buf = true) :
    Memory.wf (feed b s).buf = true := by
  rw [feed_buf]; exact wf_write b (by omega) hm

theorem feedAll_nil (s : State) : feedAll [] s = s := rfl
theorem feedAll_cons (b : Byte) (bs : List Byte) (s : State) : feedAll (b :: bs) s = feedAll bs (feed b s) := rfl
theorem feedAll_append (bs cs : List Byte) (s : State) : feedAll (bs ++ cs) s = feedAll cs (feedAll bs s) := by
  simp [feedAll]

/-- What holds after every `feed` holds after a list of them. -/
theorem feedAll_keeps (P : State → Prop) (hfeed : ∀ b s, P s → P (feed b s)) (bs : List Byte) {s : State} (h : P s) :
    P (feedAll bs s) := by
  induction bs generalizing s with
  | nil => exact h
  | cons b bs ih => exact ih (hfeed b s h)

/-- What holds after every `feed` holds after the loop of zeros. -/
theorem feedZeros_keeps (P : State → Prop) (hfeed : ∀ b s, P s → P (feed b s)) (fuel : Nat) {s : State} (h : P s) :
    P (feedZeros fuel s) := by
  induction fuel generalizing s with
  | zero => exact h
  | succ n ih =>
    unfold feedZeros
    split
    · exact h
    · exact ih (hfeed 0 s h)

/-- What holds after every `feed` holds after the padding sequence. -/
theorem feedPadding_keeps (P : State → Prop) (hfeed : ∀ b s, P s → P (feed b s)) {s : State} (h : P s) :
    P (feedPadding s) :=
  feedAll_keeps P hfeed _ (feedZeros_keeps P hfeed _ (hfeed _ _ h))

theorem feedPadding_len (s : State) : (feedPadding s).len = s.len :=
  feedPadding_keeps (fun t => t.len = s.len) (fun b t h => by simp [h]) rfl
theorem feedPadding_uerr (s : State) : (feedPadding s).uerr = s.uerr :=
  feedPadding_keeps (fun t => t.uerr = s.uerr) (fun b t h => by simp [h]) rfl
theorem feedPadding_ierr (s : State) : (feedPadding s).ierr = s.ierr :=
  feedPadding_keeps (fun t => t.ierr = s.ierr) (fun b t h => by simp [h]) rfl
theorem feedPadding_inbox (s : State) : (feedPadding s).inbox = s.inbox :=
  feedPadding_keeps (fun t => t.inbox = s.inbox) (fun b t h => by simp [h]) rfl
theorem feedPadding_epoch (s : State) : (feedPadding s).epoch = s.epoch :=
  feedPadding_keeps (fun t => t.epoch = s.epoch) (fun b t h => by simp [h]) rfl

/-- The padding sequence keeps the canonical form and the range of the count. -/
theorem feedPadding_wf {s : State} (h : s.bufcnt.toNat ≤ 63) (hm : Memory.wf s.buf = true) :
    Memory.wf (feedPadding s).buf = true ∧ (feedPadding s).bufcnt.toNat ≤ 63 :=
  feedPadding_keeps (fun t => Memory.wf t.buf = true ∧ t.bufcnt.toNat ≤ 63)
    (fun b _ ht => ⟨feed_wf b ht.2 ht.1, feed_count_le b ht.2⟩) ⟨hm, h⟩

/-- The padding sequence leaves the sequencer idle when it was. -/
theorem feedPadding_idle {s : State} (h : s.phase = .idle ∧ s.t = 0) :
    (feedPadding s).phase = .idle ∧ (feedPadding s).t = 0 :=
  feedPadding_keeps (fun t => t.phase = .idle ∧ t.t = 0) (fun b _ ht => feed_idle b ht) h

end Sys2Proof.Machine
end

