-- ==== Sys2Proof/Laws/Step.lean ====
section
/-! SUPPORT. Everything a command and a step can do, said once. -/
namespace Sys2Proof.Machine

theorem position_eq_zero_iff (s : State) : s.position = 0 ↔ s.Idle := by
  have key : ∀ (p : BitVec 3) (t : BitVec 7), seqWord p t = 0 ↔ p = 0 ∧ t = 0 := by decide
  rw [State.position, key]
  cases h : s.phase <;> simp [Phase.code, State.Idle, h]

/-- ABSORB where it executes. -/
theorem execAbsorb_next (b : Byte) {s : State} (hst : s.st ≠ .finalized) (hcnt : s.bufcnt.toNat ≤ 63) :
    execAbsorb b s = .next (respond .ok 0 { feed b s with len := s.len + 1, st := .accumulating }) := by
  unfold execAbsorb
  rw [if_neg hst, if_pos ((canFeed_iff s).mpr hcnt)]

/-- FINAL where it executes. -/
theorem execFinal_next {s : State} (hst : s.st ≠ .finalized) (hcnt : s.bufcnt.toNat ≤ 63) :
    execFinal s = .next (respond .ok 0 { feedPadding s with st := .finalized }) := by
  unfold execFinal
  rw [if_neg hst, if_pos ((canFeed_iff s).mpr hcnt)]

/-- Everything ABSORB can do. -/
theorem execAbsorb_cases {b : Byte} {s t : State} (h : execAbsorb b s = .next t) :
    (s.st = .finalized ∧ t = raise .usageError s) ∨
    (s.st ≠ .finalized ∧ s.bufcnt.toNat ≤ 63 ∧
      t = respond .ok 0 { feed b s with len := s.len + 1, st := .accumulating }) := by
  unfold execAbsorb at h
  split at h
  · exact .inl ⟨‹_›, by simpa using h.symm⟩
  · split at h
    · exact .inr ⟨‹_›, (canFeed_iff s).mp ‹_›, by simpa using h.symm⟩
    · simp at h

/-- Everything FINAL can do. -/
theorem execFinal_cases {s t : State} (h : execFinal s = .next t) :
    (s.st = .finalized ∧ t = raise .usageError s) ∨
    (s.st ≠ .finalized ∧ s.bufcnt.toNat ≤ 63 ∧ t = respond .ok 0 { feedPadding s with st := .finalized }) := by
  unfold execFinal at h
  split at h
  · exact .inl ⟨‹_›, by simpa using h.symm⟩
  · split at h
    · exact .inr ⟨‹_›, (canFeed_iff s).mp ‹_›, by simpa using h.symm⟩
    · simp at h

/-- Everything RDD can do. -/
theorem execRdd_cases {i : Byte} {s t : State} (h : execRdd i s = .next t) :
    t = raise .illegalCommand s ∨ t = raise .usageError s ∨
    (s.st = .finalized ∧ t = respond .ok (digestByte s.h i.toNat) s) := by
  unfold execRdd at h
  split at h
  · exact .inl (by simpa using h.symm)
  · split at h
    · exact .inr (.inr ⟨‹_›, by simpa using h.symm⟩)
    · exact .inr (.inl (by simpa using h.symm))

/-- Everything RDS can do. -/
theorem execRds_cases {sel : Byte} {s t : State} (h : execRds sel s = .next t) :
    t = raise .illegalCommand s ∨ t = respond .ok (statusAt s sel.toNat) s := by
  unfold execRds at h
  split at h
  · exact .inl (by simpa using h.symm)
  · exact .inr (by simpa using h.symm)

/-- Everything a micro-operation can do is inside the core. -/
theorem exec_micro_sameOutsideCore {i : Instr} {s t : State} (hi : positionOf i ≠ none) (h : exec i s = .next t) :
    SameOutsideCore s t := by
  cases i with
  | init => simp [positionOf] at hi
  | absorb b => simp [positionOf] at hi
  | final => simp [positionOf] at hi
  | rdd i => simp [positionOf] at hi
  | rds sel => simp [positionOf] at hi
  | uload j =>
    simp only [exec, execUload, Host.Outcome.next.injEq] at h
    exact h ▸ loadOp_sameOutsideCore _ s
  | uexp k =>
    simp only [exec, execUexp] at h
    split at h
    · simp only [Host.Outcome.next.injEq] at h
      exact h ▸ expandOp_sameOutsideCore _ s
    · simp at h
  | useed =>
    simp only [exec, execUseed, Host.Outcome.next.injEq] at h
    exact h ▸ seedOp_sameOutsideCore s
  | uround k =>
    simp only [exec, execUround] at h
    split at h
    · simp only [Host.Outcome.next.injEq] at h
      exact h ▸ roundOp_sameOutsideCore _ s
    · simp at h
  | ufold =>
    simp only [exec, execUfold, Host.Outcome.next.injEq] at h
    exact h ▸ foldOp_sameOutsideCore s

/-- A command word decodes to a command, never to a micro-operation. -/
theorem decodeCmd16_command {w : BitVec 16} {i : Instr} (h : decodeCmd16 w = .ok i) : positionOf i = none := by
  unfold decodeCmd16 at h
  repeat' split at h
  all_goals first | (simp only [Except.ok.injEq] at h; subst h; rfl) | simp at h

/-- A sequencer position decodes to a micro-operation, never to a command. -/
theorem decodeUseq_micro {p : BitVec 10} {i : Instr} (h : decodeUseq p = .ok i) : positionOf i ≠ none := by
  unfold decodeUseq at h
  repeat' split at h
  all_goals first | (simp only [Except.ok.injEq] at h; subst h; simp [positionOf]) | simp at h

/-- Everything an accepted command word can do: the effect of one of the five commands, or IllegalCommand. -/
theorem runWord_cases {w : BitVec 16} {s t : State} (h : runWord w s = .next t) :
    (∃ e, decodeCmd16 w = .error e ∧ t = raise .illegalCommand s) ∨
    (decodeCmd16 w = .ok .init ∧ execInit s = .next t) ∨
    (∃ b, decodeCmd16 w = .ok (.absorb b) ∧ execAbsorb b s = .next t) ∨
    (decodeCmd16 w = .ok .final ∧ execFinal s = .next t) ∨
    (∃ i, decodeCmd16 w = .ok (.rdd i) ∧ execRdd i s = .next t) ∨
    (∃ sel, decodeCmd16 w = .ok (.rds sel) ∧ execRds sel s = .next t) := by
  unfold runWord at h
  cases hd : decodeCmd16 w with
  | error e =>
    rw [hd] at h
    exact .inl ⟨e, rfl, by simpa using h.symm⟩
  | ok i =>
    rw [hd] at h
    have hc := decodeCmd16_command hd
    cases i with
    | init => exact .inr (.inl ⟨rfl, h⟩)
    | absorb b => exact .inr (.inr (.inl ⟨b, rfl, h⟩))
    | final => exact .inr (.inr (.inr (.inl ⟨rfl, h⟩)))
    | rdd i => exact .inr (.inr (.inr (.inr (.inl ⟨i, rfl, h⟩))))
    | rds sel => exact .inr (.inr (.inr (.inr (.inr ⟨sel, rfl, h⟩))))
    | uload j => simp [positionOf] at hc
    | uexp k => simp [positionOf] at hc
    | useed => simp [positionOf] at hc
    | uround k => simp [positionOf] at hc
    | ufold => simp [positionOf] at hc

/-- Everything a step can do. -/
theorem step_cases {s t : State} (h : step s = .next t) :
    (s.inbox.head? = some .reset ∧ t = applyReset s) ∨
    (s.inbox.head? ≠ some .reset ∧ s.Idle ∧ s.inbox = [] ∧ t = s) ∨
    (s.inbox.head? ≠ some .reset ∧ s.Idle ∧ s.inbox.head? = some .takeResponse ∧ t = s.takeInput) ∨
    (∃ w, s.Idle ∧ s.inbox.head? = some (.command w) ∧ runWord w s.takeInput = .next t) ∨
    (∃ i, s.inbox.head? ≠ some .reset ∧ ¬ s.Idle ∧ decodeUseq s.position = .ok i ∧ exec i s = .next t) := by
  unfold step nextAction at h
  by_cases hr : s.inbox.head? = some .reset
  · rw [if_pos hr] at h
    exact .inl ⟨hr, by simpa using h.symm⟩
  · rw [if_neg hr] at h
    by_cases hp : s.position = 0
    · rw [if_pos hp] at h
      have hidle := (position_eq_zero_iff s).mp hp
      cases hin : s.inbox with
      | nil =>
        rw [hin] at h
        exact .inr (.inl ⟨by simp, hidle, rfl, by simpa [hostAction] using h.symm⟩)
      | cons x rest =>
        rw [hin] at h hr
        cases x with
        | command w => exact .inr (.inr (.inr (.inl ⟨w, hidle, rfl, by simpa [hostAction] using h⟩)))
        | takeResponse => exact .inr (.inr (.inl ⟨by simp, hidle, rfl, by simpa [hostAction] using h.symm⟩))
        | reset => simp at hr
    · rw [if_neg hp] at h
      have hidle : ¬ s.Idle := fun hi => hp ((position_eq_zero_iff s).mpr hi)
      cases hd : decodeUseq s.position with
      | error e => rw [hd] at h; simp at h
      | ok i =>
        rw [hd] at h
        exact .inr (.inr (.inr (.inr ⟨i, hr, hidle, rfl, h⟩)))

end Sys2Proof.Machine
end

