-- ==== Sys2Proof/Laws/Driver.lean ====
section
/-! SUPPORT. What a handshake and a run of the driver do (30_encoding.md R78, R80). -/
namespace Sys2Proof.Machine

/-- One handshake of an idle machine is the word run with both ports empty. -/
theorem issue_idle (word : BitVec 16) {s : State} (h : s.Idle) :
    issue word s = runWord word { s with inbox := [], rsp := none } := by
  have hp : ({ s with inbox := [.command word] } : State).position = 0 := (position_eq_zero_iff _).mpr h
  simp [issue, step, nextAction, hp, hostAction, State.takeInput]

/-- A legal word is issued as its instruction. -/
theorem issue_legal {word : BitVec 16} {i : Instr} {s : State} (h : s.Idle) (hw : decodeCmd16 word = .ok i) :
    issue word s = exec i { s with inbox := [], rsp := none } := by
  simp [issue_idle word h, runWord, hw]

@[simp] theorem drive_nil (got : List Byte) (s : State) : drive [] got s = (s, .data got) := rfl

/-- The driver goes on past a response whose status is OK. -/
theorem drive_ok {word r : BitVec 16} {s s' : State} (rest : List (BitVec 16)) (got : List Byte)
    (h : issue word s = .next s') (hr : s'.rsp = some r) (hok : r.extractLsb' 8 2 = 0) :
    drive (word :: rest) got s = drive rest (got ++ readByte word r) s' := by
  simp [drive, h, hr, hok]

/-- The driver stops at a response whose status is not OK. -/
theorem drive_stop {word r : BitVec 16} {s s' : State} (rest : List (BitVec 16)) (got : List Byte)
    (h : issue word s = .next s') (hr : s'.rsp = some r) (hok : r.extractLsb' 8 2 ≠ 0) :
    drive (word :: rest) got s = (s', .errorStatus r) := by
  simp only [drive, h, hr, if_neg hok]

/-- The driver over two runs of words, the first of which reads `got'` and stops nowhere. -/
theorem drive_append {first : List (BitVec 16)} {got got' : List Byte} {s s' : State} (second : List (BitVec 16))
    (h : drive first got s = (s', .data got')) : drive (first ++ second) got s = drive second got' s' := by
  induction first generalizing got s with
  | nil => simp only [drive_nil, Prod.mk.injEq, DriverResult.data.injEq] at h; simp [h.1, h.2]
  | cons word rest ih =>
    simp only [drive] at h
    simp only [List.cons_append, drive]
    split at h
    · split at h
      · split at h
        · simp_all
        · simp at h
      · simp at h
    · simp at h
    · simp at h

end Sys2Proof.Machine
end

