-- ==== Sys2Proof/Laws/PerInstr.lean ====
section
/-! SUPPORT. The family TableBits: the encoder puts the fixed bits of opcode_table.json into every instruction's word. -/
namespace Sys2Proof.Laws.TableBits

/-- The row's format, mask and match value as opcode_table.json gives them. -/
def fixedBits : Instr → Bool × Nat × Nat
  | .init => (true, 0xFFFF, 0x1000)
  | .absorb _ => (true, 0xFF00, 0x2000)
  | .final => (true, 0xFFFF, 0x3000)
  | .rdd _ => (true, 0xFF00, 0x4000)
  | .rds _ => (true, 0xFF00, 0x5000)
  | .uload _ => (false, 0x3F0, 0x080)
  | .uexp _ => (false, 0x380, 0x100)
  | .useed => (false, 0x3FF, 0x180)
  | .uround _ => (false, 0x380, 0x200)
  | .ufold => (false, 0x3FF, 0x280)

/-- A word of the row's format whose masked bits are the row's match value. -/
def hasFixedBits (row : Bool × Nat × Nat) : CodeWord → Prop
  | .cmd16 w => row.1 = true ∧ w &&& BitVec.ofNat 16 row.2.1 = BitVec.ofNat 16 row.2.2
  | .useq p => row.1 = false ∧ p &&& BitVec.ofNat 10 row.2.1 = BitVec.ofNat 10 row.2.2

/-- The word of `i` carries the fixed bits of its row. -/
def Statement (i : Instr) : Prop := hasFixedBits (fixedBits i) (encode i)

/-- The operand byte lies outside the mask of a command with an operand. -/
theorem cmdWord_masked : ∀ (op : BitVec 4) (b : Byte), cmdWord op b &&& 0xFF00 = cmdWord op 0 := by decide +kernel

/-- The index of a position lies outside the mask of the phase. -/
theorem seqWord_masked : ∀ (phase : BitVec 3) (t : BitVec 7), seqWord phase t &&& 0x380 = seqWord phase 0 := by
  decide +kernel

/-- The index of uLOAD has four bits; the three above them are fixed at zero. -/
theorem seqWord_uload_masked : ∀ j : BitVec 4, seqWord 1 (j.setWidth 7) &&& 0x3F0 = 0x080 := by decide +kernel

theorem init : Statement .init := ⟨rfl, rfl⟩
theorem absorb (b : Byte) : Statement (.absorb b) :=
  ⟨rfl, show cmdWord 0x2 b &&& 0xFF00 = 0x2000 by rw [cmdWord_masked]; rfl⟩
theorem final : Statement .final := ⟨rfl, rfl⟩
theorem rdd (i : Byte) : Statement (.rdd i) :=
  ⟨rfl, show cmdWord 0x4 i &&& 0xFF00 = 0x4000 by rw [cmdWord_masked]; rfl⟩
theorem rds (sel : Byte) : Statement (.rds sel) :=
  ⟨rfl, show cmdWord 0x5 sel &&& 0xFF00 = 0x5000 by rw [cmdWord_masked]; rfl⟩
theorem uload (j : BitVec 4) : Statement (.uload j) := ⟨rfl, seqWord_uload_masked j⟩
theorem uexp (t : BitVec 7) : Statement (.uexp t) :=
  ⟨rfl, show seqWord 2 t &&& 0x380 = 0x100 by rw [seqWord_masked]; rfl⟩
theorem useed : Statement .useed := ⟨rfl, rfl⟩
theorem uround (t : BitVec 7) : Statement (.uround t) :=
  ⟨rfl, show seqWord 4 t &&& 0x380 = 0x200 by rw [seqWord_masked]; rfl⟩
theorem ufold : Statement .ufold := ⟨rfl, rfl⟩

end Sys2Proof.Laws.TableBits
end

