-- ==== Sys2Proof/Machine/Assembler.lean ====
section
/-! DEFINITION. The assembler syntax of command traces (30_encoding.md R77, R78; log 16): one line of text, as its
characters, to a trace line and the response it expects. It is the host's side; the machine reads words only. -/
namespace Sys2Proof.Machine

/-- The two quotation marks, by their codes. -/
def doubleQuote : Char := Char.ofNat 34
def singleQuote : Char := Char.ofNat 39

/-- The parts of a line: a run of characters without blanks, a double-quoted string, a single-quoted one. -/
inductive Token where
  | bare (cs : List Char)
  | text (cs : List Char)
  | quoted (cs : List Char)
deriving DecidableEq, Repr

/-- What the scanner is inside of; the characters of a part are held last first. -/
inductive Scan where
  | blank
  | bare (rev : List Char)
  | text (rev : List Char)
  | quoted (rev : List Char)
  /-- Behind a `;`: the rest of the line is a comment (R77). -/
  | comment
deriving DecidableEq, Repr

/-- A blank, a tab or a comma separates parts (log 16). -/
def isSeparator (c : Char) : Bool := c == ' ' || c == Char.ofNat 9 || c == ','

/-- One character; the tokens are held last first. -/
def scanChar (state : List Token × Scan) (c : Char) : List Token × Scan :=
  match state with
  | (done, .comment) => (done, .comment)
  | (done, .text rev) => if c = doubleQuote then (.text rev.reverse :: done, .blank) else (done, .text (c :: rev))
  | (done, .quoted rev) => if c = singleQuote then (.quoted rev.reverse :: done, .blank) else (done, .quoted (c :: rev))
  | (done, .blank) =>
    if c = ';' then (done, .comment)
    else if isSeparator c then (done, .blank)
    else if c = doubleQuote then (done, .text [])
    else if c = singleQuote then (done, .quoted [])
    else (done, .bare [c])
  | (done, .bare rev) =>
    if c = ';' then (.bare rev.reverse :: done, .comment)
    else if isSeparator c then (.bare rev.reverse :: done, .blank)
    else if c = doubleQuote then (.bare rev.reverse :: done, .text [])
    else if c = singleQuote then (.bare rev.reverse :: done, .quoted [])
    else (done, .bare (c :: rev))

/-- The tokens of a line; none where a quotation is not closed. -/
def tokens (line : List Char) : Option (List Token) :=
  match line.foldl scanChar ([], .blank) with
  | (done, .blank) => some done.reverse
  | (done, .comment) => some done.reverse
  | (done, .bare rev) => some (.bare rev.reverse :: done).reverse
  | (_, .text _) => none
  | (_, .quoted _) => none

/-- The value of a digit in a base of at most 16. -/
def digitValue (base : Nat) (c : Char) : Option Nat :=
  let v :=
    if '0' ≤ c ∧ c ≤ '9' then c.toNat - '0'.toNat
    else if 'a' ≤ c ∧ c ≤ 'f' then c.toNat - 'a'.toNat + 10
    else if 'A' ≤ c ∧ c ≤ 'F' then c.toNat - 'A'.toNat + 10
    else base
  if v < base then some v else none

/-- A run of digits, most significant first, onto `acc`. -/
def digits (base : Nat) : List Char → Nat → Option Nat
  | [], acc => some acc
  | c :: cs, acc =>
    match digitValue base c with
    | some v => digits base cs (base * acc + v)
    | none => none

/-- A decimal or `0x` hexadecimal number (R77). -/
def number : List Char → Option Nat
  | [] => none
  | '0' :: 'x' :: cs => if cs = [] then none else digits 16 cs 0
  | cs => digits 10 cs 0

/-- A number that fits in a byte. -/
def byteNumber (cs : List Char) : Option Byte :=
  match number cs with
  | some n => if n < 256 then some (BitVec.ofNat 8 n) else none
  | none => none

/-- A number that fits in a word of 16 bits. -/
def wordNumber (cs : List Char) : Option (BitVec 16) :=
  match number cs with
  | some n => if n < 65536 then some (BitVec.ofNat 16 n) else none
  | none => none

/-- The byte of an ASCII character. -/
def asciiByte (c : Char) : Option Byte := if c.toNat < 128 then some (BitVec.ofNat 8 c.toNat) else none

/-- The operand of ABSORB: a number 0..255 or a quoted ASCII character (R77). -/
def absorbOperand : Token → Option Byte
  | .bare cs => byteNumber cs
  | .quoted [c] => asciiByte c
  | .quoted _ => none
  | .text _ => none

/-- The names of the selectors (R77). -/
def selectorNames : List (List Char × StatusName) :=
  [(['S', 'T', 'A', 'T', 'U', 'S'], .status), (['B', 'U', 'F', 'C', 'N', 'T'], .bufcnt),
   (['L', 'E', 'N', '7'], .len7), (['L', 'E', 'N', '6'], .len6), (['L', 'E', 'N', '5'], .len5),
   (['L', 'E', 'N', '4'], .len4), (['L', 'E', 'N', '3'], .len3), (['L', 'E', 'N', '2'], .len2),
   (['L', 'E', 'N', '1'], .len1), (['L', 'E', 'N', '0'], .len0)]

/-- The operand of RDS: a number or a name (R77). -/
def selectorOperand (cs : List Char) : Option Byte :=
  match selectorNames.lookup cs with
  | some name => some name.selector
  | none => byteNumber cs

/-- A byte string: one quoted ASCII string, or a list of numbers (R78). -/
def byteString : List Token → Option (List Byte)
  | [.text cs] => cs.mapM asciiByte
  | ts => ts.mapM fun tok =>
    match tok with
    | .bare cs => byteNumber cs
    | .text _ => none
    | .quoted _ => none

/-- An instruction whose operand the command word may carry. -/
def legalLine (i : Option Instr) : Option TraceLine :=
  match i with
  | some i => if i.wf then some (.instr i) else none
  | none => none

/-- The line of a mnemonic and its operands (R77, R78); mnemonics are upper case. -/
def traceLine (mnemonic : List Char) (operands : List Token) : Option TraceLine :=
  if mnemonic = ['I', 'N', 'I', 'T'] then
    if operands = [] then some (.instr .init) else none
  else if mnemonic = ['F', 'I', 'N', 'A', 'L'] then
    if operands = [] then some (.instr .final) else none
  else if mnemonic = ['F', 'I', 'N', 'A', 'L', 'I', 'Z', 'E'] then
    if operands = [] then some .finalize else none
  else if mnemonic = ['U', 'P', 'D', 'A', 'T', 'E'] then (byteString operands).map .update
  else if mnemonic = ['D', 'I', 'G', 'E', 'S', 'T'] then (byteString operands).map .digest
  else
    match operands with
    | [operand] =>
      if mnemonic = ['A', 'B', 'S', 'O', 'R', 'B'] then legalLine ((absorbOperand operand).map .absorb)
      else
        match operand with
        | .bare cs =>
          if mnemonic = ['R', 'D', 'D'] then legalLine ((byteNumber cs).map .rdd)
          else if mnemonic = ['R', 'D', 'S'] then legalLine ((selectorOperand cs).map .rds)
          else if mnemonic = ['.', 'w', 'o', 'r', 'd'] then (wordNumber cs).map .word
          else none
        | .text _ => none
        | .quoted _ => none
    | _ => none

/-- The tokens before `->` and the response word behind it, if one stands there (R77). -/
def splitExpected : List Token → Option (List Token × Option (BitVec 16))
  | [] => some ([], none)
  | [.bare ['-', '>'], .bare cs] => (wordNumber cs).map fun w => ([], some w)
  | tok :: rest => (splitExpected rest).map fun r => (tok :: r.1, r.2)

/-- One line of a trace, with the response it expects if it says one; none for the line where only a comment or
nothing stands. The whole is none where the text is no line of the syntax. -/
def parseLine (line : List Char) : Option (Option TraceLine × Option (BitVec 16)) :=
  match tokens line with
  | none => none
  | some ts =>
    match splitExpected ts with
    | none => none
    | some ([], none) => some (none, none)
    | some (.bare mnemonic :: operands, expected) =>
      (traceLine mnemonic operands).map fun l => (some l, expected)
    | some _ => none

end Sys2Proof.Machine
end

