-- ==== Sys2Proof/Machine/Timing.lean ====
section
/-! DEFINITION. `LATENCY` (00_scope.md R7, 70_reset_and_hazards.md R198, 93_implementation_defined.md U8): an open
parameter that no rule and no other definition reads (log 15). -/
namespace Sys2Proof.Machine

/-- One less than the clock cycles from accepting a command word to its response: open, no value. -/
opaque latencyPred : BitVec 16 → State → Nat

/-- `LATENCY`: a finite positive number, possibly depending on the command and the state. -/
def latency (word : BitVec 16) (s : State) : Nat := latencyPred word s + 1

end Sys2Proof.Machine
end

