-- ==== Sys2Proof/Tests/Slice0.lean ====
section
/-! SUPPORT. Small tests of the model; every expected value stands in spec/, at the place its comment names. Then one
witness for the hypotheses of each statement that has some. -/
set_option Elab.async false
namespace Sys2Proof.Tests
open Sys2Proof.Machine

/-! ## Well-formedness: an ill-formed term for each check. -/

theorem test_wf_rdd : (Instr.rdd 20).wf = false ∧ (Instr.rdd 19).wf = true := by decide
theorem test_wf_rds : (Instr.rds 10).wf = false ∧ (Instr.rds 9).wf = true := by decide
theorem test_wf_uexp : (Instr.uexp 15).wf = false ∧ (Instr.uexp 80).wf = false ∧ (Instr.uexp 16).wf = true := by decide
theorem test_wf_uround : (Instr.uround 80).wf = false ∧ (Instr.uround 79).wf = true := by decide

/-! ## Decoding: words written out from 30_encoding.md R72 and R76, refusals from 95_test_vectors.md section 6. -/

/-- The instruction read from a code word, none where it is refused. -/
def readWord (c : CodeWord) : Option Instr :=
  match decode c with
  | .ok i => some i
  | .error _ => none

/-- Why a code word is refused. -/
def refusal (c : CodeWord) : Option IllegalWord :=
  match decode c with
  | .ok _ => none
  | .error e => some e

theorem test_decode_init : readWord (.cmd16 0b0001000000000000) = some .init := by decide
theorem test_decode_absorb : readWord (.cmd16 0b0010000011111111) = some (.absorb 0xFF) := by decide
theorem test_decode_final : readWord (.cmd16 0b0011000000000000) = some .final := by decide
theorem test_decode_rdd : readWord (.cmd16 0b0100000000010011) = some (.rdd 19) := by decide
theorem test_decode_rds : readWord (.cmd16 0b0101000000001001) = some (.rds 9) := by decide
theorem test_decode_uload : readWord (.useq 0b0010001010) = some (.uload 10) := by decide
theorem test_decode_uexp : readWord (.useq 0b0101001111) = some (.uexp 79) := by decide
theorem test_decode_useed : readWord (.useq 0b0110000000) = some .useed := by decide
theorem test_decode_uround : readWord (.useq 0b1000000000) = some (.uround 0) := by decide
theorem test_decode_ufold : readWord (.useq 0b1010000000) = some .ufold := by decide

theorem test_refuse_commands :
    refusal (.cmd16 0x0000) = some .reservedOp ∧ refusal (.cmd16 0x6000) = some .reservedOp ∧
    refusal (.cmd16 0xFFFF) = some .reservedOp ∧ refusal (.cmd16 0x1001) = some .nonzeroImm ∧
    refusal (.cmd16 0x3080) = some .nonzeroImm ∧ refusal (.cmd16 0x1100) = some .nonzeroZ ∧
    refusal (.cmd16 0x2161) = some .nonzeroZ ∧ refusal (.cmd16 0x4014) = some .digestIndex ∧
    refusal (.cmd16 0x500A) = some .statusSelector := by decide
theorem test_refuse_positions :
    refusal (.useq 0b0000000000) = some .idlePosition ∧ refusal (.useq 0b0010010000) = some .reservedPosition ∧
    refusal (.useq 0b0100001111) = some .reservedPosition ∧ refusal (.useq 0b0101010000) = some .reservedPosition ∧
    refusal (.useq 0b1001010000) = some .reservedPosition ∧ refusal (.useq 0b1100000000) = some .reservedPosition := by
  decide

/-! ## States for the tests. -/

/-- After reset, with the unspecified registers at zero so that a test can compare them. -/
def blank : State :=
  { State.reset with wk := { a := 0, b := 0, c := 0, d := 0, e := 0 }, temp := 0, w := Vector.replicate 80 0 }

/-- A context that has absorbed the bytes, fewer than 64. -/
def holding (bytes : List Byte) : State :=
  { blank with
    buf := (List.range bytes.length).map fun i => (i, bytes.getD i 0)
    bufcnt := BitVec.ofNat 7 bytes.length, len := BitVec.ofNat 64 bytes.length, st := .accumulating }

/-- `n` bytes 'a'. -/
def as (n : Nat) : State := holding (List.replicate n 0x61)

/-- The digest words of "abc" (95_test_vectors.md section 3.1). -/
def abcDigest : Vector Word 5 := #v[0xA9993E36, 0x4706816A, 0xBA3E2571, 0x7850C26C, 0x9CD0D89D]

/-- The context after `INIT; UPDATE "abc"; FINAL`. -/
def abcDone : State := { blank with h := abcDigest, len := 3, st := .finalized }

/-- The padded block of "abc" in `BUF` (95_test_vectors.md section 3.1), the core about to start. -/
def abcBlock : State :=
  { blank with
    buf := (List.range 64).map fun i =>
      (i, if i = 0 then 0x61 else if i = 1 then 0x62 else if i = 2 then 0x63 else if i = 3 then 0x80
          else if i = 63 then 0x18 else 0x00)
    phase := .load }

/-- `blank` with one input waiting. -/
def asked (i : HostInput) (s : State) : State := { s with inbox := [i] }

/-- The next state, if there is one. -/
def nextOf (o : Host.Outcome State Fault Refusal) : Option State :=
  match o with
  | .next s => some s
  | .fault _ => none
  | .refused _ => none

/-- The response of the next state. -/
def rspOf (o : Host.Outcome State Fault Refusal) : Option (BitVec 16) := (nextOf o).bind fun s => s.rsp

/-! ## The core: 40_compression_core.md R91 to R98, 95_test_vectors.md sections 2 and 3. -/

theorem test_rotl32 : rotl32 0x12345678 30 = 0x048D159E ∧ rotl32 0xC0000003 1 = 0x80000007 := by decide
theorem test_round_functions :
    roundFn 19 0xF0F0F0F0 0xFF00FF00 0xCCCCCCCC = 0xFC0CFC0C ∧ roundFn 39 0xF0F0F0F0 0xFF00FF00 0xCCCCCCCC = 0xC33CC33C ∧
    roundFn 59 0xF0F0F0F0 0xFF00FF00 0xCCCCCCCC = 0xFCC0FCC0 ∧ roundFn 60 0xF0F0F0F0 0xFF00FF00 0xCCCCCCCC = 0xC33CC33C := by
  decide
theorem test_be32 : be32 0xFF 0x80 0x00 0x00 = 0xFF800000 := by decide
/-- R94's example. -/
theorem test_uload :
    (nextOf (exec (.uload 0) abcBlock)).map (fun s => wordAt s.w 0) = some 0x61626380 ∧
    (nextOf (exec (.uload 15) abcBlock)).map (fun s => wordAt s.w 15) = some 0x00000018 := by decide +kernel
/-- R95's example. -/
theorem test_uexp :
    (nextOf (exec (.uexp 16) { blank with w := (Vector.replicate 80 0).set 0 0x61626380 })).map (fun s => wordAt s.w 16) =
      some 0xC2C4C700 := by decide +kernel
/-- R96's example. -/
theorem test_useed :
    (nextOf (exec .useed blank)).map (fun s => s.wk) =
      some { a := 0x67452301, b := 0xEFCDAB89, c := 0x98BADCFE, d := 0x10325476, e := 0xC3D2E1F0 } := by decide +kernel
/-- 95_test_vectors.md section 3.2, rows 0 and 60. -/
theorem test_uround_0 :
    (nextOf (exec (.uround 0) { blank with
        wk := { a := 0x67452301, b := 0xEFCDAB89, c := 0x98BADCFE, d := 0x10325476, e := 0xC3D2E1F0 }
        w := (Vector.replicate 80 0).set 0 0x61626380 })).map (fun s => (s.temp, s.wk)) =
      some (0x0116FC33, { a := 0x0116FC33, b := 0x67452301, c := 0x7BF36AE2, d := 0x98BADCFE, e := 0x10325476 }) := by
  decide +kernel
theorem test_uround_60 :
    (nextOf (exec (.uround 60) { blank with
        wk := { a := 0x3F52DE5A, b := 0x09D785FD, c := 0x3498BFD4, d := 0xF211824F, e := 0xD79915AB }
        w := (Vector.replicate 80 0).set 60 0x7BA06619 })).map (fun s => s.wk.a) = some 0xD756C147 := by decide +kernel
/-- R98's example. -/
theorem test_ufold :
    (nextOf (exec .ufold { blank with
        wk := { a := 0x42541B35, b := 0x5738D5E1, c := 0x21834873, d := 0x681E6DF6, e := 0xD8FDF6AD } })).map (fun s => s.h) =
      some abcDigest := by decide +kernel
/-- 95_test_vectors.md section 3.3, the all-zero block. -/
theorem test_compress_zero :
    compress Config.iv (Vector.replicate 64 0) = #v[0x92B404E5, 0x56588CED, 0x6C1ACD4E, 0xBF053F68, 0x09F73A93] := by
  decide +kernel

/-! ## The commands: 95_test_vectors.md sections 4 to 7. -/

/-- Section 4.4. -/
theorem test_absorb_first :
    (nextOf (exec (.absorb 0x61) blank)).map (fun s => (s.bufcnt, s.len, s.st, readBuf s 0, s.rsp)) =
      some (1, 1, .accumulating, 0x61, some 0x0000) := by decide +kernel
/-- Section 4.4: the 64th byte. -/
theorem test_absorb_completes :
    (nextOf (exec (.absorb 0x61) (as 63))).map (fun s => (s.h, s.bufcnt, s.len)) =
      some (#v[0xDA4968EB, 0x2E377C1F, 0x884E8F52, 0x83524BEB, 0xE74EBDBD], 0, 64) := by decide +kernel
/-- Program 1: FINAL right after the machine's own reset state. -/
theorem test_final_empty :
    (nextOf (exec .final State.reset)).map (fun s => (s.h, s.st, s.len, s.bufcnt)) =
      some (#v[0xDA39A3EE, 0x5E6B4B0D, 0x3255BFEF, 0x95601890, 0xAFD80709], .finalized, 0, 0) := by decide +kernel
/-- Program 2. -/
theorem test_final_abc : (nextOf (exec .final (holding [0x61, 0x62, 0x63]))).map (fun s => s.h) = some abcDigest := by
  decide +kernel
/-- Section 4.2, 56 and 63 bytes: two blocks. -/
theorem test_final_56 :
    (nextOf (exec .final (as 56))).map (fun s => s.h) =
      some #v[0xC2DB330F, 0x6083854C, 0x99D4B5BF, 0xB6E8F29F, 0x201BE699] := by decide +kernel
theorem test_final_63 :
    (nextOf (exec .final (as 63))).map (fun s => s.h) =
      some #v[0x03F09F5B, 0x158A7A8C, 0xDAD920BD, 0xDC29B81C, 0x18A551F5] := by decide +kernel
/-- R121's example. -/
theorem test_init :
    (nextOf (exec .init { abcDone with uerr := true, ierr := true })).map (fun s => (s.h, s.st, s.len, s.uerr, s.ierr)) =
      some (Config.iv, .empty, 0, false, false) := by decide +kernel
/-- Section 5. -/
theorem test_rdd :
    rspOf (exec (.rdd 0) abcDone) = some 0x00A9 ∧ rspOf (exec (.rdd 3) abcDone) = some 0x0036 ∧
    rspOf (exec (.rdd 4) abcDone) = some 0x0047 ∧ rspOf (exec (.rdd 19) abcDone) = some 0x009D := by decide +kernel
/-- Section 6: RDD outside Finalized, and STATUS with both flags. -/
theorem test_rdd_refused :
    (nextOf (exec (.rdd 0) blank)).map (fun s => (s.rsp, s.uerr, s.ierr)) = some (some 0x0100, true, false) := by
  decide +kernel
theorem test_rds :
    rspOf (exec (.rds 0) { abcDone with uerr := true, ierr := true }) = some 0x000E ∧
    rspOf (exec (.rds 1) (as 56)) = some 0x0038 ∧ rspOf (exec (.rds 9) abcDone) = some 0x0003 ∧
    rspOf (exec (.rds 2) { abcDone with len := 0xAB00000000000000 }) = some 0x00AB := by decide +kernel
/-- Program 5: refused commands after FINAL leave the digest. -/
theorem test_usage_errors :
    (nextOf (exec (.absorb 0x64) abcDone)).map (fun s => (s.rsp, s.uerr, s.h, s.len)) =
      some (some 0x0100, true, abcDigest, 3) ∧
    (nextOf (exec .final abcDone)).map (fun s => (s.rsp, s.uerr, s.h)) = some (some 0x0100, true, abcDigest) := by
  decide +kernel
/-- Program 6, R164: an illegal word is illegal in every state, through the step. -/
theorem test_step_illegal :
    (nextOf (step (asked (.command 0x4014) blank))).map (fun s => (s.rsp, s.uerr, s.ierr)) =
      some (some 0x0200, false, true) ∧
    (nextOf (step (asked (.command 0x2161) abcDone))).map (fun s => (s.rsp, s.uerr, s.ierr)) =
      some (some 0x0200, false, true) := by decide +kernel
/-- 41_context_commands.md R125. -/
theorem test_lbits : lbits 1000000 = 0x7A1200 ∧ lbits 0x100000001 = 0x0000000800000008 := by decide
/-- Reset in the middle of a block (70_reset_and_hazards.md R190). -/
theorem test_reset_mid_block :
    (nextOf (step (asked .reset { abcBlock with phase := .round, t := 33 }))).map (fun s => (s.h, s.phase, s.t, s.rsp)) =
      some (Config.iv, .idle, 0, none) := by decide +kernel

/-! ## The assembler and the driver: 30_encoding.md R77, R78, 95_test_vectors.md section 7. -/

/-- The words of a line of text, and the response it expects. -/
def assembled (line : List Char) : Option (List (BitVec 16) × Option (BitVec 16)) :=
  match parseLine line with
  | some (some l, expected) => some (l.words, expected)
  | some (none, _) => none
  | none => none

theorem test_assemble_absorb :
    assembled ['A', 'B', 'S', 'O', 'R', 'B', ' ', singleQuote, 'a', singleQuote] = some ([0x2061], none) ∧
    assembled ['A', 'B', 'S', 'O', 'R', 'B', ' ', '0', 'x', '6', '1', ' ', ';', ' ', 'x'] = some ([0x2061], none) := by
  decide +kernel
theorem test_assemble_read :
    assembled ['R', 'D', 'S', ' ', 'L', 'E', 'N', '0', ' ', '-', '>', ' ', '0', 'x', '0', '0', '0', '3'] =
      some ([0x5009], some 0x0003) ∧
    assembled ['R', 'D', 'D', ' ', '2', '0'] = none ∧
    assembled ['.', 'w', 'o', 'r', 'd', ' ', '0', 'x', '4', '0', '1', '4'] = some ([0x4014], none) := by decide +kernel
theorem test_assemble_update :
    assembled ['U', 'P', 'D', 'A', 'T', 'E', ' ', doubleQuote, 'a', 'b', doubleQuote] = some ([0x2061, 0x2062], none) ∧
    assembled ['U', 'P', 'D', 'A', 'T', 'E', ' ', doubleQuote, doubleQuote] = some ([], none) := by decide +kernel
/-- Program 2 and R152: the result of FINALIZE is the twenty digest bytes; a second FINALIZE reports the usage error. -/
theorem test_finalize :
    (driveFinalize (holding [0x61, 0x62, 0x63])).2 =
      .data [0xA9, 0x99, 0x3E, 0x36, 0x47, 0x06, 0x81, 0x6A, 0xBA, 0x3E, 0x25, 0x71, 0x78, 0x50, 0xC2, 0x6C,
        0x9C, 0xD0, 0xD8, 0x9D] ∧
    (driveFinalize abcDone).2 = .errorStatus 0x0100 := by decide +kernel
/-- R129: the driver reports an empty update after FINAL, and no other. -/
theorem test_drive_empty_update :
    (driveUpdate [] abcDone).2 = .errorStatus 0x0100 ∧ (driveUpdate [] blank).2 = .data [] := by decide +kernel

/-! ## Witnesses: for each statement with hypotheses, states and operands that meet them all. -/

theorem witness_DecodeInvertsEncode :
    (Instr.rdd 19).WellFormed ∧ (Instr.rds 9).WellFormed ∧ (Instr.uexp 16).WellFormed ∧ (Instr.uexp 79).WellFormed ∧
    (Instr.uround 79).WellFormed := by decide
theorem witness_EncodeInvertsDecode :
    decode (.cmd16 0x2061) = .ok (.absorb 0x61) ∧ decode (.useq 0b0100010000) = .ok (.uexp 16) := ⟨rfl, rfl⟩
theorem refused_0x4014 : ¬ ∃ i, decodeCmd16 0x4014 = .ok i := by
  rintro ⟨i, h⟩
  have : decodeCmd16 0x4014 = .error .digestIndex := rfl
  rw [this] at h
  cases h
theorem witness_IllegalWords :
    (asked (.command 0x4014) blank).Idle ∧ (asked (.command 0x4014) blank).inbox = [.command 0x4014] ∧
    ¬ ∃ i, decodeCmd16 0x4014 = .ok i := ⟨⟨rfl, rfl⟩, rfl, refused_0x4014⟩
theorem witness_ResetFromEveryState : (asked .reset abcBlock).inbox = [.reset] := rfl
theorem witness_RotateLeftMovesEveryBit : 0 < 1 ∧ 1 < 32 ∧ 0 < 31 ∧ 31 < 32 := by decide
theorem witness_RoundFunctionByRange : 0 < 80 ∧ 79 < 80 ∧ 31 < 32 := by decide
theorem witness_RoundConstants : 19 < 80 ∧ 79 < 80 := by decide
theorem witness_BigEndianBytes : 3 < 4 ∧ 7 < 8 := by decide
theorem witness_DigestByteView : 0 < 20 ∧ 19 < 20 := by decide
theorem witness_ExpandOperation : 16 ≤ (16 : BitVec 7).toNat ∧ (79 : BitVec 7).toNat ≤ 79 := by decide
theorem witness_RoundOperation : (79 : BitVec 7).toNat ≤ 79 := by decide
theorem witness_MicroSequenceInOrder :
    abcBlock.phase = .load ∧ abcBlock.t = 0 ∧ abcBlock.inbox.head? ≠ some .reset ∧ 161 < 162 :=
  ⟨rfl, rfl, by decide +kernel, by decide⟩
theorem witness_ScheduleRecurrence : 15 < 16 ∧ 16 ≤ 79 ∧ 79 < 80 := by decide
theorem witness_CompressIsEightyRounds : 79 < 80 := by decide
theorem witness_AbsorbWithinBlock :
    (blank.st ≠ .finalized ∧ blank.bufcnt.toNat < 63) ∧ ((as 62).st ≠ .finalized ∧ (as 62).bufcnt.toNat < 63) := by
  decide +kernel
theorem witness_AbsorbCompletesBlock : (as 63).st ≠ .finalized ∧ (as 63).bufcnt.toNat = 63 := by decide +kernel
theorem witness_FinalOneBlock :
    (blank.st ≠ .finalized ∧ blank.bufcnt.toNat ≤ 55) ∧ ((as 55).st ≠ .finalized ∧ (as 55).bufcnt.toNat ≤ 55) := by
  decide +kernel
theorem witness_FinalTwoBlocks :
    ((as 56).st ≠ .finalized ∧ 56 ≤ (as 56).bufcnt.toNat ∧ (as 56).bufcnt.toNat ≤ 63) ∧
    ((as 63).st ≠ .finalized ∧ 56 ≤ (as 63).bufcnt.toNat ∧ (as 63).bufcnt.toNat ≤ 63) := by decide +kernel
theorem witness_FinalFeedsPadseq : 63 ≤ 63 ∧ (as 63).bufcnt.toNat ≤ 63 := by decide +kernel
theorem witness_RddReturnsDigestByte : (19 : Byte).toNat ≤ 19 ∧ abcDone.st = .finalized := by decide +kernel
theorem witness_RdsReturnsStatusByte : (0 : Byte).toNat ≤ 9 ∧ (9 : Byte).toNat ≤ 9 ∧ (9 : Byte).toNat = 7 + 2 := by decide
theorem witness_ExceptionsChangeOnlyTheirFlag :
    abcDone.st = .finalized ∧ ((19 : Byte).toNat ≤ 19 ∧ blank.st ≠ .finalized) ∧ ¬ ∃ i, decodeCmd16 0x4014 = .ok i :=
  ⟨rfl, by decide +kernel, refused_0x4014⟩
/-- A state of each column of the table. -/
theorem witness_LifecycleTable :
    (blank.st = .empty ∧ blank.bufcnt.toNat ≤ 63) ∧ ((as 63).st = .accumulating ∧ (as 63).bufcnt.toNat ≤ 63) ∧
    (abcDone.st = .finalized ∧ abcDone.bufcnt.toNat ≤ 63) ∧ (19 : Byte).toNat ≤ 19 ∧ (9 : Byte).toNat ≤ 9 ∧
    ¬ ∃ i, decodeCmd16 0x4014 = .ok i :=
  ⟨by decide +kernel, by decide +kernel, by decide +kernel, by decide, by decide, refused_0x4014⟩
/-- FINAL at 63 pending bytes, a second command behind it. -/
theorem witness_EveryCommandIsAnswered :
    ({ as 63 with inbox := [.command 0x3000, .command 0x5000] } : State).Idle ∧
    ({ as 63 with inbox := [.command 0x3000, .command 0x5000] } : State).inbox =
      .command 0x3000 :: [.command 0x5000] ∧
    ({ as 63 with inbox := [.command 0x3000, .command 0x5000] } : State).bufcnt.toNat ≤ 63 := by decide +kernel
theorem witness_ErrorFlagsAreSticky :
    ∃ t, step (asked (.command 0x5000) { blank with uerr := true, ierr := true }) = .next t ∧
      (asked (.command 0x5000) { blank with uerr := true, ierr := true }).inbox.head? ≠ some .reset ∧
      ¬ ((asked (.command 0x5000) { blank with uerr := true, ierr := true }).Idle ∧
        (asked (.command 0x5000) { blank with uerr := true, ierr := true }).inbox.head? = some (.command 0x1000)) :=
  ⟨_, rfl, by decide +kernel, by decide +kernel⟩
theorem witness_ErrorFlagsAreSetByErrorsOnly :
    (∃ t, step (asked (.command 0x4000) blank) = .next t ∧ blank.uerr = false ∧ t.uerr = true) ∧
    (∃ t, step (asked (.command 0x0000) blank) = .next t ∧ blank.ierr = false ∧ t.ierr = true) :=
  ⟨⟨_, rfl, rfl, rfl⟩, ⟨_, rfl, rfl, rfl⟩⟩
theorem witness_FinalizedDigestStays :
    ∃ t, step (asked (.command 0x2061) abcDone) = .next t ∧ (asked (.command 0x2061) abcDone).Idle ∧
      (asked (.command 0x2061) abcDone).st = .finalized ∧ (asked (.command 0x2061) abcDone).inbox.head? ≠ some .reset ∧
      (asked (.command 0x2061) abcDone).inbox.head? ≠ some (.command 0x1000) :=
  ⟨_, rfl, by decide +kernel, rfl, by decide +kernel, by decide +kernel⟩
/-- One state for each case: INIT, reset, an ABSORB that executes, a refused ABSORB. -/
theorem witness_LengthCountsAbsorbedBytes :
    (∃ t, step (asked (.command 0x1000) (as 3)) = .next t ∧ (asked (.command 0x1000) (as 3)).Idle ∧
      (asked (.command 0x1000) (as 3)).inbox.head? = some (.command 0x1000)) ∧
    (∃ t, step (asked .reset (as 3)) = .next t ∧ (asked .reset (as 3)).inbox.head? = some .reset) ∧
    (∃ t, step (asked (.command 0x2061) blank) = .next t ∧ (asked (.command 0x2061) blank).Idle ∧
      (asked (.command 0x2061) blank).st ≠ .finalized ∧
      ∃ b : Byte, (asked (.command 0x2061) blank).inbox.head? = some (.command (0x2000 ||| b.setWidth 16))) ∧
    (∃ t, step (asked (.command 0x2061) abcDone) = .next t ∧
      (asked (.command 0x2061) abcDone).inbox.head? ≠ some .reset ∧
      (asked (.command 0x2061) abcDone).inbox.head? ≠ some (.command 0x1000) ∧
      ¬ (asked (.command 0x2061) abcDone).st ≠ .finalized) :=
  ⟨⟨_, rfl, ⟨rfl, rfl⟩, rfl⟩, ⟨_, rfl, rfl⟩, ⟨_, rfl, ⟨rfl, rfl⟩, by decide +kernel, 0x61, rfl⟩,
    ⟨_, rfl, by decide +kernel, by decide +kernel, by decide +kernel⟩⟩
theorem witness_ChainingValueWriters : ∃ t, step (asked (.command 0x3000) (as 3)) = .next t := ⟨_, rfl⟩
theorem witness_StepRunsDecodedInstruction :
    ((asked (.command 0x2061) blank).Idle ∧ (asked (.command 0x2061) blank).inbox = [.command 0x2061] ∧
      decodeCmd16 0x2061 = .ok (.absorb 0x61)) ∧
    (abcBlock.inbox.head? ≠ some .reset ∧ decodeUseq (abcBlock.phase.code ++ abcBlock.t) = .ok (.uload 0)) :=
  ⟨⟨⟨rfl, rfl⟩, rfl, rfl⟩, by decide +kernel, rfl⟩
theorem witness_PlacedWordRunsNext :
    decodeCmd16 0x3000 = .ok .final ∧ (decodeUseq 0b1010000000 = .ok .ufold ∧ State.reset.inbox = []) := ⟨rfl, rfl, rfl⟩
theorem witness_IdleMachineHoldsItsState :
    (blank.Idle ∧ blank.inbox = []) ∧
    ((asked .takeResponse blank).Idle ∧ (asked .takeResponse blank).inbox = [.takeResponse]) := by decide +kernel
theorem illegal_position : ¬ PositionLegal { blank with phase := .expand, t := 15 } := by
  rintro (h | ⟨i, h⟩)
  · revert h; decide +kernel
  · have : decodeUseq (State.position { blank with phase := .expand, t := 15 }) = .error .reservedPosition := rfl
    rw [this] at h
    cases h
theorem witness_StopsOutsideTheRules :
    (({ blank with bufcnt := 64 } : State).st ≠ .finalized ∧ 64 ≤ ({ blank with bufcnt := 64 } : State).bufcnt.toNat) ∧
    ((15 : BitVec 7).toNat < 16 ∧ 79 < (80 : BitVec 7).toNat) ∧
    (¬ PositionLegal { blank with phase := .expand, t := 15 } ∧ blank.inbox.head? ≠ some .reset) :=
  ⟨by decide +kernel, by decide, illegal_position, by decide +kernel⟩
theorem witness_ReadOperandsOutOfRange : 19 < (20 : Byte).toNat ∧ 9 < (10 : Byte).toNat := by decide

/-- A boundary state with pending bytes meets the boundary invariant. -/
theorem boundaryInv_as_3 : BoundaryInv (asked (.command 0x2061) (as 3)) := by
  refine ⟨by decide +kernel, by decide +kernel, by decide +kernel, by decide +kernel, fun _ => by decide +kernel, ?_,
    by decide +kernel⟩
  intro i hi
  have h3 : (asked (.command 0x2061) (as 3)).bufcnt.toNat = 3 := by decide +kernel
  rw [h3] at hi
  have : i = 0 ∨ i = 1 ∨ i = 2 := by omega
  rcases this with rfl | rfl | rfl <;> decide +kernel
theorem witness_BoundaryInvKept :
    BoundaryInv (asked (.command 0x2061) (as 3)) ∧ ∃ t, step (asked (.command 0x2061) (as 3)) = .next t :=
  ⟨boundaryInv_as_3, _, rfl⟩
theorem witness_AnywhereInvKept : AnywhereInv abcBlock ∧ ∃ t, step abcBlock = .next t :=
  ⟨⟨by decide +kernel, .inr ⟨.uload 0, rfl⟩⟩, _, rfl⟩
theorem witness_LegalStatesAlwaysStep : PositionLegal abcBlock ∧ abcBlock.bufcnt.toNat ≤ 63 :=
  ⟨.inr ⟨.uload 0, rfl⟩, by decide +kernel⟩
theorem witness_CanonicalMemoryIsUnique :
    Memory.wf abcBlock.buf = true ∧ ∀ a, Memory.lookup a abcBlock.buf = Memory.lookup a abcBlock.buf :=
  ⟨by decide +kernel, fun _ => rfl⟩
theorem reset_holds_empty_message : Represents State.reset [] :=
  ⟨rfl, rfl, rfl, rfl, by simp, rfl, rfl⟩
theorem witness_NewContextHoldsEmptyMessage : blank.Idle := ⟨rfl, rfl⟩
theorem as_63_holds_message : Represents (as 63) (List.replicate 63 0x61) := by
  refine ⟨rfl, rfl, rfl, rfl, ?_, rfl, rfl⟩
  have key : ∀ i : Fin 63, readBuf (as 63) i.val = (List.replicate 63 (0x61 : Byte)).getD (64 * (63 / 64) + i.val) 0 := by
    decide +kernel
  intro i hi
  exact key ⟨i, by simpa using hi⟩
/-- The empty message, and one whose next byte completes a block. -/
theorem witness_AbsorbExtendsMessage :
    Represents State.reset [] ∧ Represents (as 63) (List.replicate 63 0x61) :=
  ⟨reset_holds_empty_message, as_63_holds_message⟩
theorem as_3_holds_message : Represents (as 3) [0x61, 0x61, 0x61] := by
  refine ⟨rfl, rfl, rfl, rfl, ?_, rfl, rfl⟩
  intro i hi
  have : i = 0 ∨ i = 1 ∨ i = 2 := by simp at hi; omega
  rcases this with rfl | rfl | rfl <;> decide +kernel
theorem witness_FinalDigestsMessage :
    ([0x61, 0x61, 0x61] : List Byte).length < 2 ^ 61 ∧ Represents (as 3) [0x61, 0x61, 0x61] :=
  ⟨by decide, as_3_holds_message⟩
theorem witness_DigestOfEveryMessage : ([0x61, 0x62, 0x63] : List Byte).length < 2 ^ 61 ∧ abcDone.Idle := by
  decide +kernel
theorem witness_FinalizeReturnsDigestBytes :
    ((as 63).Idle ∧ (as 63).st ≠ .finalized ∧ (as 63).bufcnt.toNat ≤ 63) ∧ (abcDone.Idle ∧ abcDone.st = .finalized) := by
  decide +kernel
theorem witness_EmptyUpdate : blank.Idle ∧ abcDone.Idle ∧ abcDone.st = .finalized := by decide +kernel
/-- Two states of one context with different scratch registers and different stale bytes. -/
theorem witness_ScratchIsNeverSeen :
    SameContext (as 3) { as 3 with temp := 1, buf := Memory.write 60 0xFF (as 3).buf } ∧ (as 3).bufcnt.toNat ≤ 63 := by
  refine ⟨⟨rfl, rfl, rfl, rfl, rfl, rfl, ?_⟩, by decide +kernel⟩
  intro i hi
  have h3 : (as 3).bufcnt.toNat = 3 := by decide +kernel
  rw [h3] at hi
  have : i = 0 ∨ i = 1 ∨ i = 2 := by omega
  rcases this with rfl | rfl | rfl <;> decide +kernel

end Sys2Proof.Tests
end

section
/-! The digest byte view of `H` (20_memory.md R62). -/

namespace Sys2Proof.Machine

/-- Inside 0..4, the only indices the view uses, the totalised access is the word of `H`. -/
theorem chainWord_of_lt (h : Vector Word 5) {i : Nat} (hi : i < 5) : chainWord h i = h[i] :=
  dif_pos hi

/-- The bit-range form of `byte_k(v, 4)` (00_scope.md R10). -/
theorem byteOf_four (v : Word) (k : Nat) : byteOf v 4 k = v.extractLsb' (24 - 8 * k) 8 := by
  have hpos : 8 * (4 - 1 - k) = 24 - 8 * k := by omega
  rw [byteOf, hpos]

theorem digestByte_eq_byteOf (h : Vector Word 5) {i : Nat} (hi : i < 20) :
    digestByte h i = byteOf h[i / 4] 4 (i % 4) := by
  rw [digestByte, chainWord_of_lt]

theorem digestByte_eq_extractLsb' (h : Vector Word 5) {i : Nat} (hi : i < 20) :
    digestByte h i = h[i / 4].extractLsb' (24 - 8 * (i % 4)) 8 := by
  rw [digestByte_eq_byteOf h hi, byteOf_four]

/-- Settles O13: both forms of the view, and its bit-range form at the four named indices. -/
theorem digestByteView : Obligations.DigestByteView := by
  intro h i hi
  have bits {j : Nat} (hj : j < 20) := digestByte_eq_extractLsb' h hj
  exact ⟨digestByte_eq_byteOf h hi, bits hi,
    bits (by decide : 0 < 20), bits (by decide : 3 < 20), bits (by decide : 4 < 20), bits (by decide : 19 < 20)⟩

end Sys2Proof.Machine
end

section
/-! The illegal command words and what accepting one does (30_encoding.md R73, 60_exceptions.md R162). -/

namespace Sys2Proof.Machine

/-- A decoder's answer names no instruction. -/
def Refused (d : Except IllegalWord Instr) : Prop := ¬ ∃ i, d = .ok i

@[simp] theorem refused_ok (i : Instr) : ¬ Refused (.ok i) := fun h => h ⟨i, rfl⟩

@[simp] theorem refused_error (e : IllegalWord) : Refused (.error e) := nofun

theorem refused_iff_error {d : Except IllegalWord Instr} : Refused d ↔ ∃ e, d = .error e := by
  cases d with
  | ok i => simp
  | error e => simp

/-- A test that chooses an instruction or an error refuses exactly where it fails. -/
@[simp] theorem refused_ite_ok_error {p : Prop} [Decidable p] (i : Instr) (e : IllegalWord) :
    Refused (if p then .ok i else .error e) ↔ ¬ p := by
  split <;> simp [*]

/-- The five opcodes of R72 are the ones that are not reserved. -/
theorem opcode_of_not_reserved : ∀ op : BitVec 4, ¬ (op = 0x0 ∨ 0x6 ≤ op) →
    op = 0x1 ∨ op = 0x2 ∨ op = 0x3 ∨ op = 0x4 ∨ op = 0x5 := by decide

/-- The list of R73, over the fields of the word. -/
theorem refused_decodeCmd16_iff (w : BitVec 16) : Refused (decodeCmd16 w) ↔
    cmdOp w = 0x0 ∨ 0x6 ≤ cmdOp w ∨ cmdZ w ≠ 0 ∨
    ((cmdOp w = 0x1 ∨ cmdOp w = 0x3) ∧ cmdImm8 w ≠ 0x00) ∨
    (cmdOp w = 0x4 ∧ 19 < (cmdImm8 w).toNat) ∨ (cmdOp w = 0x5 ∧ 9 < (cmdImm8 w).toNat) := by
  by_cases hop : cmdOp w = 0x0 ∨ 0x6 ≤ cmdOp w
  · have hd : decodeCmd16 w = .error .reservedOp := if_pos hop
    rw [hd, ← or_assoc]
    exact iff_of_true (refused_error _) (.inl hop)
  by_cases hz : cmdZ w = 0
  · rcases opcode_of_not_reserved _ hop with h | h | h | h | h <;> simp [decodeCmd16, h, hz]
  · have hd : decodeCmd16 w = .error .nonzeroZ := (if_neg hop).trans (if_pos hz)
    rw [hd]
    exact iff_of_true (refused_error _) (.inr (.inr (.inl hz)))

/-- An idle machine runs the command word at its port, the earlier response taken (log 3). -/
theorem step_command {w : BitVec 16} {s : State} {rest : List HostInput} (hs : s.Idle)
    (hin : s.inbox = .command w :: rest) : step s = runWord w { s with inbox := rest, rsp := none } := by
  have hp : s.position = 0 := (position_eq_zero_iff s).mpr hs
  simp [step, nextAction, hp, hin, hostAction, State.takeInput]

/-- IllegalCommand comes before any state test (R164). -/
theorem runWord_refused {w : BitVec 16} (hw : Refused (decodeCmd16 w)) (s : State) :
    runWord w s = .next (raise .illegalCommand s) := by
  obtain ⟨e, he⟩ := refused_iff_error.mp hw
  rw [runWord, he]

/-- The exception's whole effect, its response the word 0x0200 (R163). -/
theorem raise_illegal_eq (s : State) :
    raise .illegalCommand s = { s with ierr := true, rsp := some 0x0200 } := rfl

/-- Settles O5: the decoder refuses exactly the words of R73, and a refused word raises IllegalCommand. -/
theorem illegalWords : Obligations.IllegalWords := by
  refine ⟨refused_decodeCmd16_iff, (refused_decodeCmd16_iff 0x0000).mpr (.inl rfl),
    (refused_decodeCmd16_iff 0xFFFF).mpr (.inr (.inl (by decide))), fun w s rest hs hin hw => ?_⟩
  rw [step_command hs hin, runWord_refused hw, raise_illegal_eq]

end Sys2Proof.Machine
end

section
/-! The left rotation (40_compression_core.md R91). -/

namespace Sys2Proof.Machine

/-- Where each bit of the rotated word comes from. -/
theorem getLsbD_rotl32 (x : Word) {n k : Nat} (hn : n < 32) (hk : k < 32) :
    (rotl32 x n).getLsbD k = x.getLsbD ((k + 32 - n) % 32) := by
  rw [rotl32, BitVec.getLsbD_or, BitVec.getLsbD_shiftLeft, BitVec.getLsbD_ushiftRight]
  rcases Nat.lt_or_ge k n with hlow | hhigh
  · have hsource : (k + 32 - n) % 32 = 32 - n + k := by omega
    simp [hlow, hsource]
  · have hsource : (k + 32 - n) % 32 = k - n := by omega
    have hover : x.getLsbD (32 - n + k) = false := BitVec.getLsbD_of_ge _ _ (by omega)
    simp [hk, Nat.not_lt.mpr hhigh, hsource, hover]

/-- Bit `i` moves to bit `(i + n) mod 32`. -/
theorem getLsbD_rotl32_moved (x : Word) {n i : Nat} (hn : n < 32) (hi : i < 32) :
    (rotl32 x n).getLsbD ((i + n) % 32) = x.getLsbD i := by
  have hsource : ((i + n) % 32 + 32 - n) % 32 = i := by omega
  rw [getLsbD_rotl32 x hn (Nat.mod_lt _ (by decide)), hsource]

theorem rotl32_zero (n : Nat) : rotl32 0 n = 0 := by simp [rotl32]

theorem rotl32_allOnes {n : Nat} (hn : n < 32) : rotl32 (BitVec.allOnes 32) n = BitVec.allOnes 32 := by
  refine BitVec.eq_of_getLsbD_eq fun k hk => ?_
  have hsource : (k + 32 - n) % 32 < 32 := Nat.mod_lt _ (by decide)
  rw [getLsbD_rotl32 _ hn hk, BitVec.getLsbD_allOnes, BitVec.getLsbD_allOnes, decide_eq_true hk, decide_eq_true hsource]

/-- The two shifts of a left rotation by 30 are those of a right rotation by 2. -/
theorem rotl32_thirty (x : Word) : rotl32 x 30 = x.rotateRight 2 := BitVec.or_comm _ _

/-- Settles O9: the formula is the definition, each bit of the result is traced to its source bit, and the two uniform
words follow. -/
theorem rotateLeftMovesEveryBit : Obligations.RotateLeftMovesEveryBit := by
  refine ⟨fun x n _ hn => ⟨rfl, fun i hi => getLsbD_rotl32_moved x hn hi, rotl32_zero n, rotl32_allOnes hn⟩,
    rotl32_thirty, ?_⟩
  decide

end Sys2Proof.Machine
end

section
/-! The round function and the round constant of each range of rounds (40_compression_core.md R92, R93). -/

namespace Sys2Proof.Machine

theorem getLsbD_ch (b c d : Word) {i : Nat} (hi : i < 32) :
    (ch b c d).getLsbD i = ((b.getLsbD i && c.getLsbD i) || (!b.getLsbD i && d.getLsbD i)) := by
  simp [ch, hi]

theorem getLsbD_parity (b c d : Word) (i : Nat) :
    (parity b c d).getLsbD i = ((b.getLsbD i != c.getLsbD i) != d.getLsbD i) := by
  simp [parity]

theorem getLsbD_maj (b c d : Word) (i : Nat) :
    (maj b c d).getLsbD i =
      ((b.getLsbD i && c.getLsbD i) || (b.getLsbD i && d.getLsbD i) || (c.getLsbD i && d.getLsbD i)) := by
  simp [maj]

/-- Settles O10: the function chosen in each range, read at one bit. -/
theorem roundFunctionByRange : Obligations.RoundFunctionByRange := by
  refine ⟨fun t i b c d _ hi => ?_, by decide⟩
  unfold roundFn
  split_ifs with h20 h40 h60
  · exact getLsbD_ch b c d hi
  · exact getLsbD_parity b c d i
  · exact getLsbD_maj b c d i
  · exact getLsbD_parity b c d i

theorem roundConst_eq_kTable {t : Nat} (ht : t < 80) : roundConst t = kTable[t / 20] := by
  unfold roundConst
  split_ifs with h20 h40 h60 <;> congr 1 <;> omega

/-- The values of R93. -/
theorem roundConst_eq_ite (t : Nat) :
    roundConst t =
      if t ≤ 19 then 0x5A827999 else if t ≤ 39 then 0x6ED9EBA1 else if t ≤ 59 then 0x8F1BBCDC else 0xCA62C1D6 := by
  simp only [← Nat.lt_succ_iff]
  rfl

/-- Settles O11: by the four ranges of rounds. -/
theorem roundConstants : Obligations.RoundConstants := fun t ht =>
  ⟨roundConst_eq_kTable ht, roundConst_eq_ite t⟩

end Sys2Proof.Machine
end

section
/-! One block in the core computes `compress` (40_compression_core.md R90, R100). The load loop and the expansion of a
block write every word of `W` before it is read, so they end with the schedule whatever `W` held; the rounds then act on
the working registers alone. -/

namespace Sys2Proof.Machine

/-- Two expansion tables hold the same words below `n`. -/
def AgreeBelow (n : Nat) (w w' : Vector Word 80) : Prop := ∀ i, i < n → wordAt w i = wordAt w' i

theorem agreeBelow_zero (w w' : Vector Word 80) : AgreeBelow 0 w w' := nofun

/-- Tables that agree at all eighty words are equal. -/
theorem AgreeBelow.eq {w w' : Vector Word 80} (h : AgreeBelow 80 w w') : w = w' := by
  refine Vector.ext fun i hi => ?_
  simpa [wordAt, hi] using h i hi

theorem wordAt_setIfInBounds (w : Vector Word 80) (t i : Nat) (v : Word) :
    wordAt (w.setIfInBounds t v) i = if i = t ∧ i < 80 then v else wordAt w i := by
  by_cases hi : i < 80
  · simp [wordAt, hi, Vector.getElem_setIfInBounds, eq_comm]
  · simp [wordAt, hi]

theorem AgreeBelow.setIfInBounds {t : Nat} {w w' : Vector Word 80} (h : AgreeBelow t w w') (v : Word) :
    AgreeBelow (t + 1) (w.setIfInBounds t v) (w'.setIfInBounds t v) := by
  intro i hi
  rw [wordAt_setIfInBounds, wordAt_setIfInBounds]
  split_ifs with hit
  · rfl
  · by_cases h80 : i < 80
    · exact h i (by omega)
    · simp [wordAt, h80]

/-- A loop that writes consecutive words, each computed from the words below it, extends an agreement by what it writes. -/
theorem AgreeBelow.fill {start : Nat} {w w' : Vector Word 80} (value : Vector Word 80 → Nat → Word)
    (hvalue : ∀ t u u', start ≤ t → AgreeBelow t u u' → value u t = value u' t) (h : AgreeBelow start w w') (n : Nat) :
    AgreeBelow (start + n) ((List.range' start n).foldl (fun w t => w.setIfInBounds t (value w t)) w)
      ((List.range' start n).foldl (fun w t => w.setIfInBounds t (value w t)) w') := by
  induction n with
  | zero => exact h
  | succ n ih =>
    simp only [List.range'_1_concat, List.foldl_append, List.foldl_cons, List.foldl_nil]
    rw [hvalue _ _ _ (Nat.le_add_right start n) ih]
    exact ih.setIfInBounds _

/-- The recurrence at `t` reads words below `t` only (R95). -/
theorem expandWord_congr {t : Nat} {w w' : Vector Word 80} (ht : 16 ≤ t) (h : AgreeBelow t w w') :
    expandWord w t = expandWord w' t := by
  simp only [expandWord]
  rw [h (t - 3) (by omega), h (t - 8) (by omega), h (t - 14) (by omega), h (t - 16) (by omega)]

/-- The two loops of the schedule give it from any earlier contents of `W`. -/
theorem schedule_from_any (block : Vector Byte 64) (w : Vector Word 80) :
    (List.range' 16 64).foldl (fun w t => w.setIfInBounds t (expandWord w t))
      ((List.range 16).foldl (fun w j => w.setIfInBounds j (blockWord block j)) w) = schedule block := by
  have hload := (agreeBelow_zero w (Vector.replicate 80 0)).fill (fun _ j => blockWord block j)
    (fun _ _ _ _ _ => rfl) 16
  rw [← List.range_eq_range'] at hload
  exact (hload.fill expandWord (fun _ _ _ => expandWord_congr) 64).eq

/-! What each loop of micro-operations does to the registers that are read later. -/

/-- A loop keeps what each operation in it keeps. -/
theorem foldl_keeps {β : Type} (f : State → β) {op : State → Nat → State} (hop : ∀ s k, f (op s k) = f s)
    (ks : List Nat) (s : State) : f (ks.foldl op s) = f s :=
  calc f (ks.foldl op s) = ks.foldl (fun b _ => b) (f s) := (List.foldl_hom f fun s k => (hop s k).symm).symm
    _ = f s := List.foldl_fixed ks

theorem foldl_loadOp_h (ks : List Nat) (s : State) : (ks.foldl (fun s j => loadOp j s) s).h = s.h :=
  foldl_keeps State.h (fun s k => loadOp_h k s) ks s

theorem foldl_expandOp_h (ks : List Nat) (s : State) : (ks.foldl (fun s t => expandOp t s) s).h = s.h :=
  foldl_keeps State.h (fun s k => expandOp_h k s) ks s

theorem foldl_roundOp_h (ks : List Nat) (s : State) : (ks.foldl (fun s t => roundOp t s) s).h = s.h :=
  foldl_keeps State.h (fun s k => roundOp_h k s) ks s

/-- The load loop writes words of the buffer, which it does not change. -/
theorem foldl_loadOp_w (ks : List Nat) (s : State) :
    (ks.foldl (fun s j => loadOp j s) s).w = ks.foldl (fun w j => w.setIfInBounds j (readBuf4 s (4 * j))) s.w := by
  induction ks generalizing s with
  | nil => rfl
  | cons k ks ih =>
    simp only [List.foldl_cons, ih, loadOp_w, readBuf4_congr (loadOp_buf k s) (loadOp_epoch k s)]

theorem foldl_expandOp_w (ks : List Nat) (s : State) :
    (ks.foldl (fun s t => expandOp t s) s).w = ks.foldl (fun w t => w.setIfInBounds t (expandWord w t)) s.w :=
  (List.foldl_hom State.w fun s k => (expandOp_w k s).symm).symm

/-- The round loop steps the working registers over a table it does not change. -/
theorem foldl_roundOp_wk (ks : List Nat) (s : State) :
    (ks.foldl (fun s t => roundOp t s) s).wk = ks.foldl (fun k t => roundStep t (wordAt s.w t) k) s.wk := by
  induction ks generalizing s with
  | nil => rfl
  | cons k ks ih => simp only [List.foldl_cons, ih, roundOp_wk, roundOp_w]

/-! The block as a whole. -/

theorem blockByte_bufferBlock (s : State) {i : Nat} (hi : i < 64) : blockByte (bufferBlock s) i = readBuf s i := by
  simp [blockByte, bufferBlock, hi]

theorem readBuf4_eq_blockWord (s : State) {j : Nat} (hj : j < 16) :
    readBuf4 s (4 * j) = blockWord (bufferBlock s) j := by
  have byte (k : Nat) (hk : k < 4) := blockByte_bufferBlock s (i := 4 * j + k) (by omega)
  rw [readBuf4, blockWord, byte 1 (by decide), byte 2 (by decide), byte 3 (by decide),
    blockByte_bufferBlock s (by omega)]

/-- The sixteen words the load loop writes are the words of the block. -/
theorem foldl_readBuf4_eq_blockWord (s : State) (w : Vector Word 80) :
    (List.range 16).foldl (fun w j => w.setIfInBounds j (readBuf4 s (4 * j))) w =
      (List.range 16).foldl (fun w j => w.setIfInBounds j (blockWord (bufferBlock s) j)) w := by
  refine List.foldl_ext _ _ _ fun w j hj => ?_
  rw [readBuf4_eq_blockWord s (List.mem_range.mp hj)]

/-- The state after the sixteen loads of a block. -/
def afterLoads (s : State) : State := (List.range 16).foldl (fun s j => loadOp j s) (s.setPosition (.load, 0))

/-- The state after the expansion of a block. -/
def afterExpansion (s : State) : State := (List.range' 16 64).foldl (fun s t => expandOp t s) (afterLoads s)

/-- The state after the eighty rounds of a block. -/
def afterRounds (s : State) : State := (List.range 80).foldl (fun s t => roundOp t s) (seedOp (afterExpansion s))

theorem runBlock_eq_foldOp (s : State) : runBlock s = foldOp (afterRounds s) := rfl

theorem afterLoads_w (s : State) :
    (afterLoads s).w = (List.range 16).foldl (fun w j => w.setIfInBounds j (blockWord (bufferBlock s) j)) s.w := by
  rw [afterLoads, foldl_loadOp_w]
  exact foldl_readBuf4_eq_blockWord s s.w

theorem afterExpansion_w (s : State) : (afterExpansion s).w = schedule (bufferBlock s) := by
  rw [afterExpansion, foldl_expandOp_w, afterLoads_w, schedule_from_any]

theorem afterExpansion_h (s : State) : (afterExpansion s).h = s.h := by
  rw [afterExpansion, foldl_expandOp_h, afterLoads, foldl_loadOp_h, setPosition_h]

theorem afterRounds_h (s : State) : (afterRounds s).h = s.h := by
  rw [afterRounds, foldl_roundOp_h, seedOp_h, afterExpansion_h]

theorem afterRounds_wk (s : State) :
    (afterRounds s).wk = allRounds (schedule (bufferBlock s)) (seedWorking s.h) := by
  rw [afterRounds, foldl_roundOp_wk, seedOp_w, seedOp_wk, afterExpansion_w, afterExpansion_h, allRounds]

/-- The fold adds the working registers after the rounds to the chaining value, which no earlier operation wrote. -/
theorem runBlock_h (s : State) : (runBlock s).h = compress s.h (bufferBlock s) := by
  rw [runBlock_eq_foldOp, foldOp_h, afterRounds_h, afterRounds_wk, compress]

/-- The frame of the core, written as a record. -/
theorem SameOutsideCore.eq_update {s t : State} (hframe : SameOutsideCore s t) :
    t = { s with h := t.h, wk := t.wk, temp := t.temp, w := t.w, phase := t.phase, t := t.t } := by
  obtain ⟨hbuf, hcnt, hlen, hst, huerr, hierr, hin, hrsp, hepoch⟩ := hframe
  rw [← hbuf, ← hcnt, ← hlen, ← hst, ← huerr, ← hierr, ← hin, ← hrsp, ← hepoch]

/-- Settles O20: the chaining value through the schedule, the rounds and the fold; the rest by the frame of the core. -/
theorem blockSequenceComputesCompress : Obligations.BlockSequenceComputesCompress := fun s =>
  ⟨runBlock_h s, readBuf_runBlock s, (runBlock_sameOutsideCore s).eq_update⟩

end Sys2Proof.Machine
end

section
/-! What FINAL feeds is the padding sequence of its count (41_context_commands.md R123, R124). -/

namespace Sys2Proof.Machine

/-- The zeros of the padding sequence, counted as R124 writes `z(n)`. -/
theorem padseq_eq {n : Nat} (hn : n ≤ 63) (bits : BitVec 64) :
    padseq n bits = 0x80 :: (List.replicate ((55 - (n : Int)) % 64).toNat 0x00 ++ (List.range 8).map (byteOf bits 8)) := by
  have hz : (119 - n) % 64 = ((55 - (n : Int)) % 64).toNat := by omega
  rw [padseq, hz, List.append_assoc, List.singleton_append]

theorem padseq_length {n : Nat} (hn : n ≤ 63) (bits : BitVec 64) :
    (padseq n bits).length = if n ≤ 55 then 64 - n else 128 - n := by
  have hz : (119 - n) % 64 + 8 + 1 = if n ≤ 55 then 64 - n else 128 - n := by split <;> omega
  simpa [padseq] using hz

theorem feedZeros_of_eq (fuel : Nat) {s : State} (h : s.bufcnt = 56) : feedZeros fuel s = s := by
  cases fuel with
  | zero => rfl
  | succ fuel => exact if_pos h

theorem feedZeros_succ (fuel : Nat) {s : State} (h : s.bufcnt ≠ 56) :
    feedZeros (fuel + 1) s = feedZeros fuel (feed 0x00 s) := if_neg h

/-- The loop of FINAL feeds as many zeros as take the count to 56 modulo 64, and stops there. -/
theorem feedZeros_eq_feedAll {k fuel : Nat} {s : State} (hcnt : s.bufcnt.toNat ≤ 63) (hk : k < 64) (hfuel : k ≤ fuel)
    (hstop : (s.bufcnt.toNat + k) % 64 = 56) : feedZeros fuel s = feedAll (List.replicate k 0x00) s := by
  induction k generalizing fuel s with
  | zero =>
    have h56 : s.bufcnt = 56 := BitVec.eq_of_toNat_eq ((Nat.mod_eq_of_lt (by omega)).symm.trans hstop)
    exact feedZeros_of_eq fuel h56
  | succ k ih =>
    obtain ⟨fuel, rfl⟩ := Nat.exists_eq_add_of_le' (Nat.one_le_of_lt hfuel)
    have hgo : s.bufcnt ≠ 56 := fun h => by
      rw [h, show (56 : BitVec 7).toNat = 56 from rfl] at hstop
      omega
    rw [feedZeros_succ fuel hgo, List.replicate_succ, feedAll_cons]
    have hnext := feed_count 0x00 hcnt
    exact ih (feed_count_le _ hcnt) (by omega) (by omega) (by omega)

/-- The loop after 0x80, from the count on entry to FINAL. -/
theorem feedZeros_after_marker {s : State} (hcnt : s.bufcnt.toNat ≤ 63) :
    feedZeros 64 (feed 0x80 s) =
      feedAll (List.replicate ((55 - (s.bufcnt.toNat : Int)) % 64).toNat 0x00) (feed 0x80 s) := by
  have hmarker := feed_count 0x80 hcnt
  exact feedZeros_eq_feedAll (feed_count_le _ hcnt) (by omega) (by omega) (by omega)

theorem feedPadding_eq_feedAll_padseq {s : State} (hcnt : s.bufcnt.toNat ≤ 63) :
    feedPadding s = feedAll (padseq s.bufcnt.toNat (lbits s.len)) s := by
  unfold feedPadding
  rw [feedZeros_after_marker hcnt, ← feedAll_append, ← feedAll_cons, ← padseq_eq hcnt]

/-- Settles O29: the sequence and its length are arithmetic on `z(n)`; the loop feeds its zeros by induction on how many
are left. -/
theorem finalFeedsPadseq : Obligations.FinalFeedsPadseq :=
  ⟨fun _ bits hn => ⟨padseq_eq hn bits, padseq_length hn bits⟩,
    fun _ hcnt => ⟨feed_count 0x80 hcnt, feedZeros_after_marker hcnt, feedPadding_eq_feedAll_padseq hcnt⟩⟩

end Sys2Proof.Machine
end

section
/-! The lifecycle table (41_context_commands.md R127): what each command answers, by the state it stands in. -/

namespace Sys2Proof.Machine

/-- The upper byte of a response word is its status (30_encoding.md R74). -/
theorem rspWord_upper (status : RspStatus) (data : Byte) :
    (rspWord status data).extractLsb' 8 8 = (0 : BitVec 6) ++ status.code :=
  BitVec.extractLsb'_append_eq_left

theorem execAbsorb_finalized (b : Byte) {s : State} (hst : s.st = .finalized) :
    execAbsorb b s = .next (raise .usageError s) := if_pos hst

theorem execFinal_finalized {s : State} (hst : s.st = .finalized) : execFinal s = .next (raise .usageError s) :=
  if_pos hst

theorem execRdd_finalized {i : Byte} (hi : i.toNat ≤ 19) {s : State} (hst : s.st = .finalized) :
    execRdd i s = .next (respond .ok (digestByte s.h i.toNat) s) :=
  (if_neg (Nat.not_lt.mpr hi)).trans (if_pos hst)

theorem execRdd_not_finalized {i : Byte} (hi : i.toNat ≤ 19) {s : State} (hst : s.st ≠ .finalized) :
    execRdd i s = .next (raise .usageError s) :=
  (if_neg (Nat.not_lt.mpr hi)).trans (if_neg hst)

theorem execRds_legal {sel : Byte} (hsel : sel.toNat ≤ 9) (s : State) :
    execRds sel s = .next (respond .ok (statusAt s sel.toNat) s) :=
  if_neg (Nat.not_lt.mpr hsel)

/-- A reset at the head of the inputs is applied in every state (70_reset_and_hazards.md R190). -/
theorem step_reset {s : State} {rest : List HostInput} (hin : s.inbox = .reset :: rest) :
    step s = .next (applyReset s) := by
  simp [step, nextAction, hin]

/-! The rows of the table whose entry depends on the state. -/

theorem exec_absorb_st_rsp (b : Byte) {s : State} (hcnt : s.bufcnt.toNat ≤ 63) :
    ∃ t, exec (.absorb b) s = .next t ∧
      if s.st = .finalized then t.st = .finalized ∧ t.rsp = some 0x0100
      else t.st = .accumulating ∧ t.rsp = some 0x0000 := by
  by_cases hst : s.st = .finalized
  · exact ⟨_, execAbsorb_finalized b hst, by rw [if_pos hst]; exact ⟨hst, rfl⟩⟩
  · exact ⟨_, execAbsorb_next b hst hcnt, by rw [if_neg hst]; exact ⟨rfl, rfl⟩⟩

theorem exec_final_st_rsp {s : State} (hcnt : s.bufcnt.toNat ≤ 63) :
    ∃ t, exec .final s = .next t ∧ t.st = .finalized ∧
      t.rsp = if s.st = .finalized then some 0x0100 else some 0x0000 := by
  by_cases hst : s.st = .finalized
  · exact ⟨_, execFinal_finalized hst, hst, (if_pos hst).symm⟩
  · exact ⟨_, execFinal_next hst hcnt, rfl, (if_neg hst).symm⟩

theorem exec_rdd_st_rsp {i : Byte} (hi : i.toNat ≤ 19) (s : State) :
    ∃ t r, exec (.rdd i) s = .next t ∧ t.st = s.st ∧ t.rsp = some r ∧
      if s.st = .finalized then r.extractLsb' 8 8 = 0 else r = 0x0100 := by
  by_cases hst : s.st = .finalized
  · refine ⟨_, _, execRdd_finalized hi hst, rfl, rfl, ?_⟩
    rw [if_pos hst]
    exact rspWord_upper .ok _
  · refine ⟨_, _, execRdd_not_finalized hi hst, rfl, rfl, ?_⟩
    rw [if_neg hst]
    rfl

/-- Settles O35: row by row; the last clause because an empty update is no word. -/
theorem lifecycleTable : Obligations.LifecycleTable := fun s hcnt =>
  ⟨⟨_, rfl, rfl, rfl⟩,
    fun b => exec_absorb_st_rsp b hcnt,
    exec_final_st_rsp hcnt,
    fun _ hi => exec_rdd_st_rsp hi s,
    fun _ hsel => ⟨_, _, execRds_legal hsel s, rfl, rfl, rspWord_upper .ok _⟩,
    fun _ hw => ⟨_, runWord_refused hw s, rfl, rfl⟩,
    fun _ => ⟨_, step_reset rfl, rfl⟩,
    fun _ => drive_nil [] s⟩

end Sys2Proof.Machine
end

section
/-! The effect of the two exceptions (60_exceptions.md R163): the flag, the response, nothing else. -/

namespace Sys2Proof.Machine

/-- The exception's whole effect, its response the word 0x0100 (R163). -/
theorem raise_usage_eq (s : State) :
    raise .usageError s = { s with uerr := true, rsp := some 0x0100 } := rfl

/-- Settles O34: each refused command answers with its exception's state, and that state differs from the one before in
the flag and the response alone. -/
theorem exceptionsChangeOnlyTheirFlag : Obligations.ExceptionsChangeOnlyTheirFlag := by
  refine ⟨fun b s hst => ?_, fun i s hi hst => ?_, fun w s hw => ?_⟩
  · rw [← raise_usage_eq]
    exact ⟨execAbsorb_finalized b hst, execFinal_finalized hst⟩
  · rw [← raise_usage_eq]
    exact execRdd_not_finalized hi hst
  · rw [← raise_illegal_eq]
    exact runWord_refused hw s

end Sys2Proof.Machine
end

section
/-! The two formats, from their fields to the word and back (30_encoding.md R70, R72, R76). Everything about either
decoder follows from one list of the words it accepts. -/

namespace Sys2Proof.Machine

/-! The fields of a command word. -/

theorem cmdWord_toNat (op : BitVec 4) (imm8 : Byte) :
    (cmdWord op imm8).toNat = op.toNat * 2 ^ 12 + imm8.toNat := by
  rw [cmdWord, BitVec.toNat_append, ← Nat.shiftLeft_add_eq_or_of_lt imm8.isLt, BitVec.toNat_append, Nat.shiftLeft_eq,
    Nat.shiftLeft_eq, show (0 : BitVec 4).toNat = 0 from rfl, Nat.or_zero]
  omega

theorem cmdOp_toNat (w : BitVec 16) : (cmdOp w).toNat = w.toNat / 2 ^ 12 := by
  rw [cmdOp, BitVec.extractLsb'_toNat, Nat.shiftRight_eq_div_pow]
  omega

theorem cmdZ_toNat (w : BitVec 16) : (cmdZ w).toNat = w.toNat / 2 ^ 8 % 2 ^ 4 := by
  rw [cmdZ, BitVec.extractLsb'_toNat, Nat.shiftRight_eq_div_pow]

theorem cmdImm8_toNat (w : BitVec 16) : (cmdImm8 w).toNat = w.toNat % 2 ^ 8 := by
  rw [cmdImm8, BitVec.extractLsb'_toNat, Nat.shiftRight_zero]

@[simp] theorem cmdOp_cmdWord (op : BitVec 4) (imm8 : Byte) : cmdOp (cmdWord op imm8) = op := by
  apply BitVec.eq_of_toNat_eq
  rw [cmdOp_toNat, cmdWord_toNat]
  omega

@[simp] theorem cmdZ_cmdWord (op : BitVec 4) (imm8 : Byte) : cmdZ (cmdWord op imm8) = 0 := by
  apply BitVec.eq_of_toNat_eq
  rw [cmdZ_toNat, cmdWord_toNat, show (0 : BitVec 4).toNat = 0 from rfl]
  omega

@[simp] theorem cmdImm8_cmdWord (op : BitVec 4) (imm8 : Byte) : cmdImm8 (cmdWord op imm8) = imm8 := by
  apply BitVec.eq_of_toNat_eq
  rw [cmdImm8_toNat, cmdWord_toNat]
  omega

/-- A word whose `z` is zero is put together from its two other fields. -/
theorem eq_cmdWord_of_fields {w : BitVec 16} {op : BitVec 4} (hop : cmdOp w = op) (hz : cmdZ w = 0) :
    w = cmdWord op (cmdImm8 w) := by
  have hzero := cmdZ_toNat w
  rw [hz, show (0 : BitVec 4).toNat = 0 from rfl] at hzero
  apply BitVec.eq_of_toNat_eq
  rw [← hop, cmdWord_toNat, cmdOp_toNat, cmdImm8_toNat]
  omega

/-! The fields of a sequencer position. -/

theorem seqWord_toNat (phase : BitVec 3) (t : BitVec 7) : (seqWord phase t).toNat = phase.toNat * 2 ^ 7 + t.toNat := by
  rw [seqWord, BitVec.toNat_append, ← Nat.shiftLeft_add_eq_or_of_lt t.isLt, Nat.shiftLeft_eq]

@[simp] theorem seqPhase_seqWord (phase : BitVec 3) (t : BitVec 7) : seqPhase (seqWord phase t) = phase :=
  BitVec.extractLsb'_append_eq_left

@[simp] theorem seqT_seqWord (phase : BitVec 3) (t : BitVec 7) : seqT (seqWord phase t) = t :=
  BitVec.extractLsb'_append_eq_right

theorem eq_seqWord_of_fields {p : BitVec 10} {phase : BitVec 3} (hphase : seqPhase p = phase) :
    p = seqWord phase (seqT p) := by
  apply BitVec.eq_of_toNat_eq
  rw [← hphase, seqWord_toNat, seqPhase, seqT, BitVec.extractLsb'_toNat, BitVec.extractLsb'_toNat,
    Nat.shiftRight_eq_div_pow, Nat.shiftRight_zero]
  omega

/-! The words the command decoder accepts. -/

theorem decodeCmd16_absorb (b : Byte) : decodeCmd16 (cmdWord 0x2 b) = .ok (.absorb b) := by simp [decodeCmd16]

theorem decodeCmd16_rdd {i : Byte} (hi : i.toNat ≤ 19) : decodeCmd16 (cmdWord 0x4 i) = .ok (.rdd i) := by
  simp [decodeCmd16, hi]

theorem decodeCmd16_rds {sel : Byte} (hsel : sel.toNat ≤ 9) : decodeCmd16 (cmdWord 0x5 sel) = .ok (.rds sel) := by
  simp [decodeCmd16, hsel]

theorem not_refused_of_ok {d : Except IllegalWord Instr} {i : Instr} (h : d = .ok i) : ¬ Refused d := h ▸ refused_ok i

/-- The opcode map R72: by the opcode, the word is put together from its fields and decodes as the map says. -/
theorem decodeCmd16_eq_ok_iff (w : BitVec 16) (i : Instr) : decodeCmd16 w = .ok i ↔
    (w = cmdWord 0x1 0 ∧ i = .init) ∨ (∃ b, w = cmdWord 0x2 b ∧ i = .absorb b) ∨ (w = cmdWord 0x3 0 ∧ i = .final) ∨
    (∃ k : Byte, k.toNat ≤ 19 ∧ w = cmdWord 0x4 k ∧ i = .rdd k) ∨
    (∃ k : Byte, k.toNat ≤ 9 ∧ w = cmdWord 0x5 k ∧ i = .rds k) := by
  constructor
  · intro h
    have hlegal := not_refused_of_ok h
    rw [refused_decodeCmd16_iff] at hlegal
    simp only [not_or, not_and, not_not, Nat.not_lt] at hlegal
    obtain ⟨hop0, hop6, hz, himm, hdig, hsel⟩ := hlegal
    rcases opcode_of_not_reserved _ (not_or.mpr ⟨hop0, hop6⟩) with hop | hop | hop | hop | hop
    · have hw := eq_cmdWord_of_fields hop hz
      rw [himm (.inl hop)] at hw
      subst hw
      exact .inl ⟨rfl, (Except.ok.inj h).symm⟩
    · have hw := eq_cmdWord_of_fields hop hz
      rw [hw, decodeCmd16_absorb] at h
      exact .inr (.inl ⟨_, hw, (Except.ok.inj h).symm⟩)
    · have hw := eq_cmdWord_of_fields hop hz
      rw [himm (.inr hop)] at hw
      subst hw
      exact .inr (.inr (.inl ⟨rfl, (Except.ok.inj h).symm⟩))
    · have hw := eq_cmdWord_of_fields hop hz
      rw [hw, decodeCmd16_rdd (hdig hop)] at h
      exact .inr (.inr (.inr (.inl ⟨_, hdig hop, hw, (Except.ok.inj h).symm⟩)))
    · have hw := eq_cmdWord_of_fields hop hz
      rw [hw, decodeCmd16_rds (hsel hop)] at h
      exact .inr (.inr (.inr (.inr ⟨_, hsel hop, hw, (Except.ok.inj h).symm⟩)))
  · rintro (⟨rfl, rfl⟩ | ⟨b, rfl, rfl⟩ | ⟨rfl, rfl⟩ | ⟨k, hk, rfl, rfl⟩ | ⟨k, hk, rfl, rfl⟩)
    · rfl
    · exact decodeCmd16_absorb b
    · rfl
    · exact decodeCmd16_rdd hk
    · exact decodeCmd16_rds hk

/-- The word as R77 writes it: the opcode in its place, OR the operand. -/
theorem cmdWord_eq_or (op : BitVec 4) (imm8 : Byte) :
    cmdWord op imm8 = (op.setWidth 16 <<< 12) ||| imm8.setWidth 16 := by
  apply BitVec.eq_of_toNat_eq
  have hop : op.toNat <<< 12 % 2 ^ 16 = op.toNat <<< 12 := by
    rw [Nat.shiftLeft_eq]
    omega
  have himm : imm8.toNat < 2 ^ 12 := by omega
  rw [cmdWord_toNat, BitVec.toNat_or, BitVec.toNat_shiftLeft, BitVec.toNat_setWidth_of_le (by decide),
    BitVec.toNat_setWidth_of_le (by decide), hop, ← Nat.shiftLeft_add_eq_or_of_lt himm, Nat.shiftLeft_eq]

/-- Settles O3: the list of accepted words, the words written as R77 writes them. -/
theorem legalCommandWords : Obligations.LegalCommandWords := by
  intro w i
  simp only [decodeCmd16_eq_ok_iff, cmdWord_eq_or]
  rfl

/-! The positions the micro-sequencer's decoder accepts. -/

theorem decodeUseq_uload (j : BitVec 4) : decodeUseq (seqWord 1 (j.setWidth 7)) = .ok (.uload j) := by
  have hle : j.toNat % 128 ≤ 15 := by omega
  have hj : (j.setWidth 7).extractLsb' 0 4 = j := by
    apply BitVec.eq_of_toNat_eq
    simpa using j.isLt
  simp [decodeUseq, hle, hj]

theorem decodeUseq_uexp {k : BitVec 7} (hlow : 16 ≤ k.toNat) (hhigh : k.toNat ≤ 79) :
    decodeUseq (seqWord 2 k) = .ok (.uexp k) := by
  simp [decodeUseq, hlow, hhigh]

theorem decodeUseq_uround {k : BitVec 7} (hk : k.toNat ≤ 79) : decodeUseq (seqWord 4 k) = .ok (.uround k) := by
  simp [decodeUseq, hk]

/-- An index of uLOAD is its four low bits. -/
theorem eq_setWidth_of_le_15 {t : BitVec 7} (ht : t.toNat ≤ 15) : t = (t.extractLsb' 0 4).setWidth 7 := by
  apply BitVec.eq_of_toNat_eq
  simp
  omega

/-- The table of R76: phase by phase. -/
theorem decodeUseq_eq_ok_iff (p : BitVec 10) (i : Instr) : decodeUseq p = .ok i ↔
    (∃ j : BitVec 4, p = seqWord 1 (j.setWidth 7) ∧ i = .uload j) ∨
    (∃ k : BitVec 7, 16 ≤ k.toNat ∧ k.toNat ≤ 79 ∧ p = seqWord 2 k ∧ i = .uexp k) ∨
    (p = seqWord 3 0 ∧ i = .useed) ∨
    (∃ k : BitVec 7, k.toNat ≤ 79 ∧ p = seqWord 4 k ∧ i = .uround k) ∨
    (p = seqWord 5 0 ∧ i = .ufold) := by
  constructor
  · intro h
    unfold decodeUseq at h
    split_ifs at h with hidle hload hexp hseed hround hfold <;> cases h
    · have ht := eq_setWidth_of_le_15 hload.2
      exact .inl ⟨_, ht ▸ eq_seqWord_of_fields hload.1, rfl⟩
    · exact .inr (.inl ⟨_, hexp.2.1, hexp.2.2, eq_seqWord_of_fields hexp.1, rfl⟩)
    · exact .inr (.inr (.inl ⟨hseed.2 ▸ eq_seqWord_of_fields hseed.1, rfl⟩))
    · exact .inr (.inr (.inr (.inl ⟨_, hround.2, eq_seqWord_of_fields hround.1, rfl⟩)))
    · exact .inr (.inr (.inr (.inr ⟨hfold.2 ▸ eq_seqWord_of_fields hfold.1, rfl⟩)))
  · rintro (⟨j, rfl, rfl⟩ | ⟨k, hlow, hhigh, rfl, rfl⟩ | ⟨rfl, rfl⟩ | ⟨k, hk, rfl, rfl⟩ | ⟨rfl, rfl⟩)
    · exact decodeUseq_uload j
    · exact decodeUseq_uexp hlow hhigh
    · rfl
    · exact decodeUseq_uround hk
    · rfl

/-- The position as the table's first number plus the index. -/
theorem seqWord_eq_add (phase : BitVec 3) (t : BitVec 7) :
    seqWord phase t = seqWord phase 0 + t.setWidth 10 := by
  apply BitVec.eq_of_toNat_eq
  rw [BitVec.toNat_add, seqWord_toNat, seqWord_toNat, BitVec.toNat_setWidth, show (0 : BitVec 7).toNat = 0 from rfl]
  omega

/-- Settles O4: the list of accepted positions, each as the first number of its row plus the index. -/
theorem sequencerPositions : Obligations.SequencerPositions := by
  intro p i
  rw [decodeUseq_eq_ok_iff]
  have hload (j : BitVec 4) : seqWord 1 (j.setWidth 7) = 0x080 + j.setWidth 10 := by
    have hj : (j.setWidth 7).setWidth 10 = j.setWidth 10 := by
      apply BitVec.eq_of_toNat_eq
      simp
    rw [seqWord_eq_add, hj]
    rfl
  have hexp (k : BitVec 7) : seqWord 2 k = 0x100 + k.setWidth 10 := seqWord_eq_add 2 k
  have hround (k : BitVec 7) : seqWord 4 k = 0x200 + k.setWidth 10 := seqWord_eq_add 4 k
  simp only [hload, hexp, hround]
  rfl

/-- Settles O1: by the instruction, whose operand range is the one its row of the decoder asks for. -/
theorem decodeInvertsEncode : Obligations.DecodeInvertsEncode := by
  intro i hi
  cases i with
  | init => rfl
  | absorb b => exact decodeCmd16_absorb b
  | final => rfl
  | rdd k => exact decodeCmd16_rdd (of_decide_eq_true hi)
  | rds sel => exact decodeCmd16_rds (of_decide_eq_true hi)
  | uload j => exact decodeUseq_uload j
  | uexp t =>
    obtain ⟨hlow, hhigh⟩ := of_decide_eq_true hi
    exact decodeUseq_uexp hlow hhigh
  | useed => rfl
  | uround t => exact decodeUseq_uround (of_decide_eq_true hi)
  | ufold => rfl

/-- Settles O2: by the two lists of accepted words. -/
theorem encodeInvertsDecode : Obligations.EncodeInvertsDecode := by
  rintro (w | p) i h
  · rcases (decodeCmd16_eq_ok_iff w i).mp h with
      ⟨rfl, rfl⟩ | ⟨b, rfl, rfl⟩ | ⟨rfl, rfl⟩ | ⟨k, hk, rfl, rfl⟩ | ⟨k, hk, rfl, rfl⟩
    · exact ⟨rfl, rfl⟩
    · exact ⟨rfl, rfl⟩
    · exact ⟨rfl, rfl⟩
    · exact ⟨decide_eq_true hk, rfl⟩
    · exact ⟨decide_eq_true hk, rfl⟩
  · rcases (decodeUseq_eq_ok_iff p i).mp h with
      ⟨j, rfl, rfl⟩ | ⟨k, hlow, hhigh, rfl, rfl⟩ | ⟨rfl, rfl⟩ | ⟨k, hk, rfl, rfl⟩ | ⟨rfl, rfl⟩
    · exact ⟨rfl, rfl⟩
    · exact ⟨decide_eq_true ⟨hlow, hhigh⟩, rfl⟩
    · exact ⟨rfl, rfl⟩
    · exact ⟨decide_eq_true hk, rfl⟩
    · exact ⟨rfl, rfl⟩

/-- Settles O6: each word is evaluated. -/
theorem tableWordsDecode : Obligations.TableWordsDecode := by
  unfold Obligations.TableWordsDecode
  decide

end Sys2Proof.Machine
end

section
/-! Big-endian bytes and the bit length as numbers (00_scope.md R10, 41_context_commands.md R125). -/

namespace Sys2Proof.Machine

theorem byteOf_toNat {m : Nat} (v : BitVec m) (n k : Nat) :
    (byteOf v n k).toNat = v.toNat / 2 ^ (8 * (n - 1 - k)) % 256 := by
  rw [byteOf, BitVec.extractLsb'_toNat, Nat.shiftRight_eq_div_pow]

/-- Appending a byte multiplies the value before it by 256. -/
theorem append_byte_toNat {m : Nat} (v : BitVec m) (b : Byte) : (v ++ b).toNat = v.toNat * 2 ^ 8 + b.toNat := by
  rw [BitVec.toNat_append, ← Nat.shiftLeft_add_eq_or_of_lt b.isLt, Nat.shiftLeft_eq]

theorem be32_toNat (b0 b1 b2 b3 : Byte) :
    (be32 b0 b1 b2 b3).toNat = b0.toNat * 2 ^ 24 + b1.toNat * 2 ^ 16 + b2.toNat * 2 ^ 8 + b3.toNat := by
  simp only [be32, append_byte_toNat]
  omega

/-- Settles O12: a byte is what a division by a power of 256 leaves modulo 256. -/
theorem bigEndianBytes : Obligations.BigEndianBytes :=
  ⟨be32_toNat, fun v k _ => byteOf_toNat v 4 k, fun v k _ => byteOf_toNat v 8 k⟩

theorem lbits_toNat (len : BitVec 64) : (lbits len).toNat = len.toNat * 8 % 2 ^ 64 := BitVec.toNat_mul len 8

/-- Eight times the length is its low 61 bits above three zeros. -/
theorem lbits_eq_append (len : BitVec 64) : lbits len = len.extractLsb' 0 61 ++ (0 : BitVec 3) := by
  apply BitVec.eq_of_toNat_eq
  rw [lbits_toNat, BitVec.toNat_append, BitVec.extractLsb'_toNat, Nat.shiftRight_zero, Nat.shiftLeft_eq,
    show (0 : BitVec 3).toNat = 0 from rfl, Nat.or_zero]
  omega

/-- Settles O30: the product as a number, and as bits. -/
theorem bitLength : Obligations.BitLength := fun len => ⟨lbits_toNat len, lbits_eq_append len, rfl, rfl⟩

end Sys2Proof.Machine
end

section
/-! The five micro-operations (40_compression_core.md R94 to R98): result, frame, completion. -/

namespace Sys2Proof.Machine

/-- `rotl32` is the library's rotation at the two amounts the core uses. -/
theorem rotl32_eq_rotateLeft (x : Word) {n : Nat} (hn : n < 32) : rotl32 x n = x.rotateLeft n := by
  rw [BitVec.rotateLeft, Nat.mod_eq_of_lt hn]
  rfl

theorem wordAt_eq_getElem (w : Vector Word 80) {i : Nat} (hi : i < 80) : wordAt w i = w[i] := dif_pos hi

/-- The recurrence with the words it reads and the library's rotation. -/
theorem expandWord_eq (w : Vector Word 80) {t : Nat} (ht : t < 80) :
    expandWord w t = (w[t - 3] ^^^ w[t - 8] ^^^ w[t - 14] ^^^ w[t - 16]).rotateLeft 1 := by
  rw [expandWord, rotl32_eq_rotateLeft _ (by decide), wordAt_eq_getElem, wordAt_eq_getElem, wordAt_eq_getElem,
    wordAt_eq_getElem]

/-- The round's `TEMP`, with the library's rotation. -/
theorem roundTemp_eq (t : Nat) (wt : Word) (k : Working) :
    roundTemp t wt k = k.a.rotateLeft 5 + roundFn t k.b k.c k.d + k.e + roundConst t + wt := by
  rw [roundTemp, rotl32_eq_rotateLeft _ (by decide)]

theorem roundStep_eq (t : Nat) (wt : Word) (k : Working) :
    roundStep t wt k =
      { a := k.a.rotateLeft 5 + roundFn t k.b k.c k.d + k.e + roundConst t + wt, b := k.a, c := k.b.rotateLeft 30,
        d := k.c, e := k.d } := by
  rw [roundStep, roundTemp_eq, rotl32_eq_rotateLeft _ (by decide)]

/-! The successor positions, the index as a number (R99). -/

/-- A position that counts up to `n` and then moves to the phase after it. -/
theorem position_ite_toNat {k : Nat} (hk : k < 127) (n : Nat) (here : Phase) (after : Phase × BitVec 7) :
    ((if k < n then (here, BitVec.ofNat 7 (k + 1)) else after).1,
      (if k < n then (here, BitVec.ofNat 7 (k + 1)) else after).2.toNat) =
      if k < n then (here, k + 1) else (after.1, after.2.toNat) := by
  have hfit : (BitVec.ofNat 7 (k + 1)).toNat = k + 1 := by
    rw [BitVec.toNat_ofNat]
    omega
  split
  · rw [hfit]
  · rfl

theorem nextPosition_load_toNat {j : Nat} (hj : j ≤ 15) :
    ((nextPosition .load j).1, (nextPosition .load j).2.toNat) =
      if j < 15 then (Phase.load, j + 1) else (Phase.expand, 16) :=
  position_ite_toNat (by omega) 15 .load (.expand, 16)

theorem nextPosition_expand_toNat {k : Nat} (hk : k ≤ 79) :
    ((nextPosition .expand k).1, (nextPosition .expand k).2.toNat) =
      if k < 79 then (Phase.expand, k + 1) else (Phase.seed, 0) :=
  position_ite_toNat (by omega) 79 .expand (.seed, 0)

theorem nextPosition_round_toNat {k : Nat} (hk : k ≤ 79) :
    ((nextPosition .round k).1, (nextPosition .round k).2.toNat) =
      if k < 79 then (Phase.round, k + 1) else (Phase.fold, 0) :=
  position_ite_toNat (by omega) 79 .round (.fold, 0)

/-! What the two micro-operations with a restricted index do inside their range. -/

theorem exec_uexp {k : BitVec 7} (hlow : 16 ≤ k.toNat) (hhigh : k.toNat ≤ 79) (s : State) :
    exec (.uexp k) s = .next (expandOp k.toNat s) := if_pos ⟨hlow, hhigh⟩

theorem exec_uround {k : BitVec 7} (hk : k.toNat ≤ 79) (s : State) :
    exec (.uround k) s = .next (roundOp k.toNat s) := if_pos hk

/-- A table after one word was written, read inside its bounds. -/
theorem getElem_setIfInBounds_eq_ite (w : Vector Word 80) (j : Nat) (v : Word) {i : Nat} (hi : i < 80) :
    (w.setIfInBounds j v)[i] = if i = j then v else w[i] := by
  simp [Vector.getElem_setIfInBounds, eq_comm]

/-- Settles O14: the word written is the four bytes, the rest by the rules of `loadOp`. -/
theorem loadOperation : Obligations.LoadOperation := by
  intro j s
  have hj : j.toNat ≤ 15 := by omega
  refine ⟨loadOp j.toNat s, rfl, fun i hi => ?_, nextPosition_load_toNat hj, readBuf_congr rfl rfl, rfl⟩
  rw [getElem_congr_coll (loadOp_w j.toNat s), getElem_setIfInBounds_eq_ite _ _ _ hi]
  refine ite_congr rfl (fun h => ?_) (fun _ => rfl)
  rw [h]
  rfl

/-- Settles O15: the word written is the recurrence's, the rest by the rules of `expandOp`. -/
theorem expandOperation : Obligations.ExpandOperation := by
  intro k s hlow hhigh
  refine ⟨_, exec_uexp hlow hhigh s, fun i hi => ?_, nextPosition_expand_toNat hhigh, readBuf_congr rfl rfl, rfl⟩
  rw [getElem_congr_coll (expandOp_w k.toNat s), getElem_setIfInBounds_eq_ite _ _ _ hi]
  refine ite_congr rfl (fun h => ?_) (fun _ => rfl)
  subst h
  exact expandWord_eq s.w hi

/-- Settles O16: uSEED is `seedOp`, field by field. -/
theorem seedOperation : Obligations.SeedOperation := fun s =>
  ⟨seedOp s, rfl, rfl, rfl, rfl, rfl, rfl, readBuf_congr rfl rfl, rfl⟩

/-- Settles O17: the round step over the registers before it, the rest by the rules of `roundOp`. -/
theorem roundOperation : Obligations.RoundOperation := by
  intro k s hk
  refine ⟨_, exec_uround hk s, ?_, rfl, rfl, rotl32_eq_rotateLeft _ (by decide), rfl, rfl,
    nextPosition_round_toNat hk, readBuf_congr rfl rfl, rfl⟩
  rw [roundOp_temp, roundTemp_eq, wordAt_eq_getElem]

/-- Settles O18: uFOLD is `foldOp`; each sum as a number modulo 2^32. -/
theorem foldOperation : Obligations.FoldOperation := fun s =>
  ⟨foldOp s, rfl, BitVec.toNat_add _ _, BitVec.toNat_add _ _, BitVec.toNat_add _ _, BitVec.toNat_add _ _,
    BitVec.toNat_add _ _, readBuf_congr rfl rfl, rfl⟩

end Sys2Proof.Machine
end

section
/-! The schedule, the rounds and what a block leaves in the scratch registers (40_compression_core.md R90, R94 to R100). -/

namespace Sys2Proof.Machine

/-- The table after a loop that writes the words from `start` on, each from the table as it stands. -/
def fillWords (value : Vector Word 80 → Nat → Word) (start n : Nat) (w : Vector Word 80) : Vector Word 80 :=
  (List.range' start n).foldl (fun w t => w.setIfInBounds t (value w t)) w

theorem fillWords_succ (value : Vector Word 80 → Nat → Word) (start n : Nat) (w : Vector Word 80) :
    fillWords value start (n + 1) w =
      (fillWords value start n w).setIfInBounds (start + n) (value (fillWords value start n w) (start + n)) := by
  simp only [fillWords, List.range'_1_concat, List.foldl_append, List.foldl_cons, List.foldl_nil]

theorem agreeBelow_setIfInBounds (w : Vector Word 80) (t : Nat) (v : Word) : AgreeBelow t w (w.setIfInBounds t v) := by
  intro i hi
  rw [wordAt_setIfInBounds, if_neg fun h => Nat.ne_of_lt hi h.1]

/-- The loop leaves the words below its start alone. -/
theorem wordAt_fillWords_below (value : Vector Word 80 → Nat → Word) {start i : Nat} (hi : i < start) (n : Nat)
    (w : Vector Word 80) : wordAt (fillWords value start n w) i = wordAt w i := by
  induction n with
  | zero => rfl
  | succ n ih => rw [fillWords_succ, ← agreeBelow_setIfInBounds _ _ _ i (by omega), ih]

/-- Each word the loop writes is computed from the finished table, if it is computed from the words below it. -/
theorem wordAt_fillWords {value : Vector Word 80 → Nat → Word} {start n : Nat}
    (hvalue : ∀ t u u', start ≤ t → AgreeBelow t u u' → value u t = value u' t) (w : Vector Word 80) {t : Nat}
    (hstart : start ≤ t) (hn : t < start + n) (ht : t < 80) :
    wordAt (fillWords value start n w) t = value (fillWords value start n w) t := by
  induction n with
  | zero => omega
  | succ n ih =>
    have hagree := agreeBelow_setIfInBounds (fillWords value start n w) (start + n)
      (value (fillWords value start n w) (start + n))
    rw [← fillWords_succ] at hagree
    rcases Nat.lt_or_eq_of_le (show t ≤ start + n from Nat.le_of_lt_succ hn) with hlt | rfl
    · rw [← hagree t hlt, ih hlt, hvalue t _ _ hstart fun i hi => hagree i (by omega)]
    · rw [← hvalue _ _ _ hstart hagree, fillWords_succ, wordAt_setIfInBounds, if_pos ⟨rfl, ht⟩]

theorem schedule_eq_fillWords (block : Vector Byte 64) :
    schedule block =
      fillWords expandWord 16 64 (fillWords (fun _ j => blockWord block j) 0 16 (Vector.replicate 80 0)) := by
  rw [schedule, List.range_eq_range']
  rfl

theorem wordAt_schedule_load (block : Vector Byte 64) {j : Nat} (hj : j < 16) :
    wordAt (schedule block) j = blockWord block j := by
  rw [schedule_eq_fillWords, wordAt_fillWords_below _ hj, wordAt_fillWords (fun _ _ _ _ _ => rfl) _ (Nat.zero_le j)]
  · omega
  · omega

theorem wordAt_schedule_expand (block : Vector Byte 64) {t : Nat} (hlow : 16 ≤ t) (hhigh : t < 80) :
    wordAt (schedule block) t = expandWord (schedule block) t := by
  rw [schedule_eq_fillWords]
  exact wordAt_fillWords (fun _ _ _ => expandWord_congr) _ hlow hhigh hhigh

theorem blockByte_eq_getElem (block : Vector Byte 64) {i : Nat} (hi : i < 64) : blockByte block i = block[i] :=
  dif_pos hi

/-- Settles O22: the words the two loops of the schedule write. -/
theorem scheduleRecurrence : Obligations.ScheduleRecurrence := by
  refine fun block => ⟨fun j hj => ?_, fun t hlow hhigh => ?_⟩
  · rw [← wordAt_eq_getElem _ (by omega), wordAt_schedule_load block hj, blockWord,
      blockByte_eq_getElem, blockByte_eq_getElem, blockByte_eq_getElem, blockByte_eq_getElem, be32]
  · rw [← wordAt_eq_getElem _ hhigh, wordAt_schedule_expand block hlow hhigh, expandWord_eq _ hhigh]

/-- The working registers after the first `n` rounds over a table. -/
def firstRounds (w : Vector Word 80) (k : Working) (n : Nat) : Working :=
  (List.range n).foldl (fun k t => roundStep t (wordAt w t) k) k

theorem firstRounds_succ (w : Vector Word 80) (k : Working) (n : Nat) :
    firstRounds w k (n + 1) = roundStep n (wordAt w n) (firstRounds w k n) := by
  simp only [firstRounds, List.range_succ, List.foldl_append, List.foldl_cons, List.foldl_nil]

/-- Settles O23: the sequence is that of the first rounds, and `compress` folds its eightieth element. -/
theorem compressIsEightyRounds : Obligations.CompressIsEightyRounds := by
  refine fun h block => ⟨firstRounds (schedule block) (seedWorking h), rfl, fun t ht => ?_, rfl⟩
  rw [firstRounds_succ, roundStep_eq, wordAt_eq_getElem _ ht]

/-- After a round `TEMP` is the new `A` (R97). -/
theorem roundOp_temp_eq_a (t : Nat) (s : State) : (roundOp t s).temp = (roundOp t s).wk.a := rfl

theorem foldl_roundOp_temp (n : Nat) (s : State) :
    ((List.range (n + 1)).foldl (fun s t => roundOp t s) s).temp =
      ((List.range (n + 1)).foldl (fun s t => roundOp t s) s).wk.a := by
  rw [List.range_succ, List.foldl_append, List.foldl_cons, List.foldl_nil, roundOp_temp_eq_a]

theorem afterRounds_temp (s : State) : (afterRounds s).temp = (afterRounds s).wk.a := by
  rw [afterRounds]
  exact foldl_roundOp_temp 79 _

theorem foldl_roundOp_w (ks : List Nat) (s : State) : (ks.foldl (fun s t => roundOp t s) s).w = s.w :=
  foldl_keeps State.w (fun s k => roundOp_w k s) ks s

theorem afterRounds_w (s : State) : (afterRounds s).w = schedule (bufferBlock s) := by
  rw [afterRounds, foldl_roundOp_w, seedOp_w, afterExpansion_w]

/-- Settles O21: the fold leaves the scratch registers as the rounds left them. -/
theorem blockOverwritesScratch : Obligations.BlockOverwritesScratch := by
  intro s
  rw [runBlock_eq_foldOp, foldOp_w, foldOp_wk, foldOp_temp]
  exact ⟨afterRounds_w s, afterRounds_wk s, afterRounds_temp s⟩

end Sys2Proof.Machine
end

section
/-! The step at a sequencer position, and the 162 steps of a block (40_compression_core.md R99). -/

namespace Sys2Proof.Machine

/-- A block in the core runs its micro-operation, unless a reset waits. -/
theorem step_micro {i : Instr} {s : State} (hreset : s.inbox.head? ≠ some .reset)
    (hdec : decodeUseq s.position = .ok i) : step s = exec i s := by
  have hpos : s.position ≠ 0 := fun h => by simp [h, decodeUseq, seqPhase, seqT] at hdec
  simp only [step, nextAction, if_neg hreset, if_neg hpos, hdec]

/-- Outside the table of R76 the step stops. -/
theorem step_badPosition {s : State} (hreset : s.inbox.head? ≠ some .reset) (hlegal : ¬ PositionLegal s) :
    step s = .fault .seqPosition := by
  obtain ⟨hpos, hdec⟩ := not_or.mp hlegal
  obtain ⟨e, he⟩ := refused_iff_error.mp hdec
  simp only [step, nextAction, if_neg hreset, if_neg hpos, he]

/-- The sequencer stands at a position, the index as a number, and no reset waits. -/
def StandsAt (s : State) (pos : Phase × Nat) : Prop :=
  (s.phase, s.t.toNat) = pos ∧ s.inbox.head? ≠ some .reset

/-! The step at each position, and where it leads. -/

theorem step_load {s : State} {j : Nat} (h : StandsAt s (.load, j)) (hj : j < 16) :
    step s = .next (loadOp j s) ∧
      StandsAt (loadOp j s) (if j < 15 then (Phase.load, j + 1) else (Phase.expand, 16)) := by
  obtain ⟨hpos, hreset⟩ := h
  obtain ⟨hphase, rfl⟩ := Prod.mk.inj hpos
  have ht := eq_setWidth_of_le_15 (Nat.le_of_lt_succ hj)
  have hdec : decodeUseq s.position = .ok (.uload (s.t.extractLsb' 0 4)) := by
    rw [State.position, hphase, ht]
    exact (decodeUseq_uload _).trans (by rw [← ht])
  have hindex : (s.t.extractLsb' 0 4).toNat = s.t.toNat := by
    rw [BitVec.extractLsb'_toNat]
    omega
  refine ⟨?_, nextPosition_load_toNat (Nat.le_of_lt_succ hj), hreset⟩
  rw [step_micro hreset hdec, ← hindex]
  rfl

theorem step_expand {s : State} {k : Nat} (h : StandsAt s (.expand, k)) (hlow : 16 ≤ k) (hhigh : k ≤ 79) :
    step s = .next (expandOp k s) ∧
      StandsAt (expandOp k s) (if k < 79 then (Phase.expand, k + 1) else (Phase.seed, 0)) := by
  obtain ⟨hpos, hreset⟩ := h
  obtain ⟨hphase, rfl⟩ := Prod.mk.inj hpos
  have hdec : decodeUseq s.position = .ok (.uexp s.t) := by
    rw [State.position, hphase]
    exact decodeUseq_uexp hlow hhigh
  exact ⟨(step_micro hreset hdec).trans (exec_uexp hlow hhigh s), nextPosition_expand_toNat hhigh, hreset⟩

theorem step_seed {s : State} (h : StandsAt s (.seed, 0)) :
    step s = .next (seedOp s) ∧ StandsAt (seedOp s) (.round, 0) := by
  obtain ⟨hpos, hreset⟩ := h
  obtain ⟨hphase, ht⟩ := Prod.mk.inj hpos
  have hdec : decodeUseq s.position = .ok .useed := by
    rw [State.position, hphase, BitVec.eq_of_toNat_eq (y := 0) ht]
    rfl
  exact ⟨step_micro hreset hdec, rfl, hreset⟩

theorem step_round {s : State} {k : Nat} (h : StandsAt s (.round, k)) (hk : k ≤ 79) :
    step s = .next (roundOp k s) ∧
      StandsAt (roundOp k s) (if k < 79 then (Phase.round, k + 1) else (Phase.fold, 0)) := by
  obtain ⟨hpos, hreset⟩ := h
  obtain ⟨hphase, rfl⟩ := Prod.mk.inj hpos
  have hdec : decodeUseq s.position = .ok (.uround s.t) := by
    rw [State.position, hphase]
    exact decodeUseq_uround hk
  exact ⟨(step_micro hreset hdec).trans (exec_uround hk s), nextPosition_round_toNat hk, hreset⟩

theorem step_fold {s : State} (h : StandsAt s (.fold, 0)) : step s = .next (foldOp s) := by
  obtain ⟨hpos, hreset⟩ := h
  obtain ⟨hphase, ht⟩ := Prod.mk.inj hpos
  have hdec : decodeUseq s.position = .ok .ufold := by
    rw [State.position, hphase, BitVec.eq_of_toNat_eq (y := 0) ht]
    rfl
  exact step_micro hreset hdec

/-! Runs of steps. -/

/-- `k` steps from `s` end in `u`, which stands at the position. -/
def Reaches (s : State) (k : Nat) (u : State) (pos : Phase × Nat) : Prop := stepN k s = .next u ∧ StandsAt u pos

theorem stepN_add {m : Nat} {s u : State} (h : stepN m s = .next u) (n : Nat) : stepN (m + n) s = stepN n u := by
  induction m generalizing s with
  | zero =>
    cases h
    rw [Nat.zero_add]
  | succ m ih =>
    rw [Nat.add_right_comm]
    cases hstep : step s with
    | next s' =>
      simp only [stepN, hstep] at h ⊢
      exact ih h
    | fault r => simp [stepN, hstep] at h
    | refused r => simp [stepN, hstep] at h

theorem stepN_succ {n : Nat} {s u v : State} (h : stepN n s = .next u) (hstep : step u = .next v) :
    stepN (n + 1) s = .next v := by
  rw [stepN_add h 1]
  simp only [stepN, hstep]

theorem Reaches.trans {s u v : State} {m n : Nat} {pos pos' : Phase × Nat} (h : Reaches s m u pos)
    (h' : Reaches u n v pos') : Reaches s (m + n) v pos' :=
  ⟨(stepN_add h.1 n).trans h'.1, h'.2⟩

/-- A run through one phase: where each of its positions runs `op` and leads to the next one, the last one to `after`, the
first `k` steps are the first `k` operations of the loop. -/
theorem reaches_phase {op : State → Nat → State} {phase : Phase} {start last : Nat} {after : Phase × Nat}
    (hop : ∀ s k, StandsAt s (phase, k) → start ≤ k → k ≤ last →
      step s = .next (op s k) ∧ StandsAt (op s k) (if k < last then (phase, k + 1) else after))
    (hle : start ≤ last) {s : State} (hs : StandsAt s (phase, start)) {k : Nat} (hk : start + k ≤ last + 1) :
    Reaches s k ((List.range' start k).foldl op s) (if start + k ≤ last then (phase, start + k) else after) := by
  induction k with
  | zero => exact ⟨rfl, by simpa [hle] using hs⟩
  | succ k ih =>
    obtain ⟨hrun, hat⟩ := ih (by omega)
    rw [if_pos (by omega)] at hat
    obtain ⟨hstep, hnext⟩ := hop _ _ hat (by omega) (by omega)
    rw [List.range'_1_concat, List.foldl_append]
    exact ⟨stepN_succ hrun hstep, hnext⟩

theorem reaches_loads {s : State} (hs : StandsAt s (.load, 0)) {k : Nat} (hk : k ≤ 16) :
    Reaches s k ((List.range k).foldl (fun s j => loadOp j s) s)
      (if k ≤ 15 then (Phase.load, k) else (Phase.expand, 16)) := by
  have h := reaches_phase (fun s j hj _ hlast => step_load hj (Nat.lt_succ_of_le hlast)) (Nat.zero_le 15) hs (k := k)
    (by omega)
  rwa [Nat.zero_add, ← List.range_eq_range'] at h

theorem reaches_expansion {s : State} (hs : StandsAt s (.expand, 16)) {k : Nat} (hk : k ≤ 64) :
    Reaches s k ((List.range' 16 k).foldl (fun s t => expandOp t s) s)
      (if 16 + k ≤ 79 then (Phase.expand, 16 + k) else (Phase.seed, 0)) :=
  reaches_phase (fun s t ht hstart hlast => step_expand ht hstart hlast) (by decide) hs (by omega)

theorem reaches_rounds {s : State} (hs : StandsAt s (.round, 0)) {k : Nat} (hk : k ≤ 80) :
    Reaches s k ((List.range k).foldl (fun s t => roundOp t s) s)
      (if k ≤ 79 then (Phase.round, k) else (Phase.fold, 0)) := by
  have h := reaches_phase (fun s t ht _ hlast => step_round ht hlast) (Nat.zero_le 79) hs (k := k) (by omega)
  rwa [Nat.zero_add, ← List.range_eq_range'] at h

/-! The phases of one block, one after the other. -/

section
variable {s : State} (hs : StandsAt s (.load, 0))
include hs

theorem reaches_afterLoads : Reaches s 16 (afterLoads s) (.expand, 16) := by
  obtain ⟨hphase, ht⟩ := Prod.mk.inj hs.1
  have hset : s.setPosition (.load, 0) = s := by
    rw [State.setPosition, ← hphase, ← BitVec.eq_of_toNat_eq (x := s.t) (y := 0) ht]
  have h := reaches_loads hs (Nat.le_refl 16)
  rw [afterLoads, hset]
  exact h

theorem reaches_afterExpansion : Reaches s 80 (afterExpansion s) (.seed, 0) :=
  (reaches_afterLoads hs).trans (reaches_expansion (reaches_afterLoads hs).2 (Nat.le_refl 64))

theorem reaches_seedOp : Reaches s 81 (seedOp (afterExpansion s)) (.round, 0) := by
  obtain ⟨hrun, hat⟩ := reaches_afterExpansion hs
  obtain ⟨hstep, hnext⟩ := step_seed hat
  exact ⟨stepN_succ hrun hstep, hnext⟩

theorem reaches_afterRounds : Reaches s 161 (afterRounds s) (.fold, 0) :=
  (reaches_seedOp hs).trans (reaches_rounds (reaches_seedOp hs).2 (Nat.le_refl 80))

theorem stepN_block : stepN 162 s = .next (runBlock s) := by
  obtain ⟨hrun, hat⟩ := reaches_afterRounds hs
  exact stepN_succ hrun (step_fold hat)

/-- Where the first 161 steps of a block stand. -/
theorem reaches_blockPosition {k : Nat} (hk : k < 162) : ∃ u, Reaches s k u
    (if k < 16 then (Phase.load, k) else if k < 80 then (Phase.expand, k) else if k = 80 then (Phase.seed, 0)
     else if k < 161 then (Phase.round, k - 81) else (Phase.fold, 0)) := by
  split_ifs with hload hexp hseed hround
  · have h := reaches_loads hs (k := k) (by omega)
    rw [if_pos (by omega)] at h
    exact ⟨_, h⟩
  · obtain ⟨n, rfl⟩ := Nat.exists_eq_add_of_le (Nat.not_lt.mp hload)
    have h := reaches_expansion (reaches_afterLoads hs).2 (k := n) (by omega)
    rw [if_pos (by omega)] at h
    exact ⟨_, (reaches_afterLoads hs).trans h⟩
  · exact ⟨_, hseed ▸ reaches_afterExpansion hs⟩
  · obtain ⟨n, rfl⟩ := Nat.exists_eq_add_of_le (show 81 ≤ k by omega)
    have h := reaches_rounds (reaches_seedOp hs).2 (k := n) (by omega)
    rw [if_pos (by omega)] at h
    rw [Nat.add_sub_cancel_left]
    exact ⟨_, (reaches_seedOp hs).trans h⟩
  · obtain rfl : k = 161 := by omega
    exact ⟨_, reaches_afterRounds hs⟩

end

/-- Settles O19: phase by phase, each run the loop of `runBlock`. -/
theorem microSequenceInOrder : Obligations.MicroSequenceInOrder := by
  intro s hphase ht hreset
  have hs : StandsAt s (.load, 0) := ⟨by rw [hphase, ht]; rfl, hreset⟩
  refine ⟨fun k hk => ?_, stepN_block hs⟩
  obtain ⟨u, hrun, hat, -⟩ := reaches_blockPosition hs hk
  exact ⟨u, hrun, hat⟩

end Sys2Proof.Machine
end

section
/-! Reset, INIT, ABSORB and the read-out commands: result, frame, completion (41_context_commands.md R120 to R122,
42_readout_commands.md R150, R151). -/

namespace Sys2Proof.Machine

/-- Settles O7: the fields of the reset state. -/
theorem resetLeavesFreshContext : Obligations.ResetLeavesFreshContext :=
  ⟨rfl, rfl, rfl, rfl, rfl, rfl, ⟨rfl, rfl⟩, rfl⟩

/-- Settles O8: the step applies the reset, whose fields are those of the reset state. -/
theorem resetFromEveryState : Obligations.ResetFromEveryState := by
  intro s rest hin
  have hrest : (applyReset s).inbox = rest := by rw [applyReset_inbox, hin, List.tail_cons]
  exact ⟨_, step_reset hin, rfl, rfl, rfl, rfl, rfl, rfl, ⟨rfl, rfl⟩, rfl, hrest⟩

/-- Settles O24: INIT is a record update that leaves the buffer and the reset count alone. -/
theorem initMakesFreshContext : Obligations.InitMakesFreshContext := fun _ =>
  ⟨_, rfl, rfl, rfl, rfl, rfl, rfl, rfl, rfl, readBuf_congr rfl rfl, rfl⟩

theorem len_succ_toNat (len : BitVec 64) : (len + 1).toNat = (len.toNat + 1) % 2 ^ 64 := BitVec.toNat_add len 1

/-- Settles O25: before the 64th byte the feeder only stores the byte. -/
theorem absorbWithinBlock : Obligations.AbsorbWithinBlock := by
  intro b s hst hcnt
  have hle := Nat.le_of_lt hcnt
  have hexec : exec (.absorb b) s = _ := execAbsorb_next b hst hle
  rw [feed_of_lt b hcnt] at hexec
  exact ⟨_, hexec, readBuf_storeByte s b, storeByte_count b hle, len_succ_toNat s.len, rfl⟩

theorem bufferBlock_getElem (s : State) {i : Nat} (hi : i < 64) : (bufferBlock s)[i] = readBuf s i :=
  Vector.getElem_ofFn hi

/-- The block the core is given when the 64th byte has been stored. -/
theorem bufferBlock_storeByte_full (b : Byte) {s : State} (hcnt : s.bufcnt.toNat = 63) :
    bufferBlock (storeByte b s) = (bufferBlock s).set 63 b := by
  refine Vector.ext fun i hi => ?_
  simp only [bufferBlock_getElem, Vector.getElem_set, readBuf_storeByte, hcnt, eq_comm]

theorem feed_full_h_eq_compress (b : Byte) {s : State} (hcnt : s.bufcnt.toNat = 63) :
    (feed b s).h = compress s.h ((bufferBlock s).set 63 b) := by
  rw [feed_full_h b hcnt, runBlock_h, storeByte_h, bufferBlock_storeByte_full b hcnt]

/-- What `feed` writes, and that the sequencer ends idle where it was or a block ran. -/
theorem feed_eq_update (b : Byte) (s : State) :
    feed b s = { s with h := (feed b s).h, buf := (feed b s).buf, bufcnt := (feed b s).bufcnt, wk := (feed b s).wk,
                        temp := (feed b s).temp, w := (feed b s).w, phase := (feed b s).phase, t := (feed b s).t } := by
  conv_rhs => rw [← feed_len b s, ← feed_st b s, ← feed_uerr b s, ← feed_ierr b s, ← feed_inbox b s, ← feed_rsp b s,
    ← feed_epoch b s]

/-- Settles O26: the 64th byte runs the block over the filled buffer. -/
theorem absorbCompletesBlock : Obligations.AbsorbCompletesBlock := by
  intro b s hst hcnt
  have hread (a : Nat) : readBuf (feed b s) a = if a = 63 then b else readBuf s a := hcnt ▸ readBuf_feed b s a
  have hframe := feed_eq_update b s
  rw [feed_full_bufcnt b hcnt, feed_full_phase b hcnt, feed_full_t b hcnt] at hframe
  refine ⟨_, execAbsorb_next b hst (Nat.le_of_eq hcnt), hread, feed_full_h_eq_compress b hcnt, len_succ_toNat s.len, ?_⟩
  rw [hframe]
  rfl

theorem zero_append_toNat (m : Nat) {n : Nat} (v : BitVec n) : ((0 : BitVec m) ++ v).toNat = v.toNat := by
  rw [BitVec.toNat_append, show (0 : BitVec m).toNat = 0 from Nat.zero_mod _, Nat.zero_shiftLeft, Nat.zero_or]

/-- A response as a number: 256 times its status, plus its data (30_encoding.md R74). -/
theorem rspWord_toNat (status : RspStatus) (data : Byte) :
    (rspWord status data).toNat = status.code.toNat * 2 ^ 8 + data.toNat := by
  rw [rspWord, append_byte_toNat, zero_append_toNat]

/-- An OK response is its data byte. -/
theorem rspWord_ok_eq_setWidth (data : Byte) : rspWord .ok data = data.setWidth 16 := by
  apply BitVec.eq_of_toNat_eq
  rw [rspWord_toNat, show RspStatus.ok.code.toNat = 0 from rfl, BitVec.toNat_setWidth]
  omega

/-- Settles O32: RDD in Finalized answers the digest byte. -/
theorem rddReturnsDigestByte : Obligations.RddReturnsDigestByte := by
  intro i s hi hst
  have hexec : exec (.rdd i) s = _ := execRdd_finalized hi hst
  rw [hexec, digestByte_eq_extractLsb' s.h (Nat.lt_succ_of_le hi), respond, rspWord_ok_eq_setWidth]

/-- STATUS as a number (10_state.md R31). -/
theorem statusByte_toNat (s : State) : (statusByte s).toNat = 8 * s.ierr.toNat + 4 * s.uerr.toNat +
    (match s.st with | .empty => 0 | .accumulating => 1 | .finalized => 2) := by
  unfold statusByte
  cases s.ierr <;> cases s.uerr <;> cases s.st <;> rfl

/-- Settles O33: RDS answers the byte of the status space, which is read by the selector. -/
theorem rdsReturnsStatusByte : Obligations.RdsReturnsStatusByte := by
  intro sel s hsel
  have hexec : exec (.rds sel) s = _ := execRds_legal hsel s
  rw [respond, rspWord_ok_eq_setWidth] at hexec
  refine ⟨statusAt s sel.toNat, hexec, ?_, ?_, ?_⟩
  · rintro rfl
    exact statusByte_toNat s
  · rintro rfl
    exact zero_append_toNat 1 s.bufcnt
  · intro k hk hk2
    rw [statusAt, hk2, if_neg (by omega), if_neg (by omega)]
    rfl

/-- Settles O46: the operand's range is asked first. -/
theorem readOperandsOutOfRange : Obligations.ReadOperandsOutOfRange :=
  ⟨fun _ _ hi => if_pos hi, fun _ _ hsel => if_pos hsel⟩

end Sys2Proof.Machine
end

section
/-! What the step runs, and where the machine holds or stops (30_encoding.md R76, R80; logs 3, 9, 10, 12). -/

namespace Sys2Proof.Machine

theorem runWord_legal {w : BitVec 16} {i : Instr} (hw : decodeCmd16 w = .ok i) (s : State) :
    runWord w s = exec i s := by
  rw [runWord, hw]

/-- Settles O42: a legal word runs as its instruction, a position as its micro-operation. -/
theorem stepRunsDecodedInstruction : Obligations.StepRunsDecodedInstruction :=
  ⟨fun _ _ _ _ hs hin hw => (step_command hs hin).trans (runWord_legal hw _),
    fun _ _ hreset hdec => step_micro hreset hdec⟩

theorem step_hold {s : State} (hs : s.Idle) (hin : s.inbox = []) : step s = .next s := by
  have hp : s.position = 0 := (position_eq_zero_iff s).mpr hs
  simp [step, nextAction, hp, hin, hostAction]

theorem step_takeResponse {s : State} {rest : List HostInput} (hs : s.Idle) (hin : s.inbox = .takeResponse :: rest) :
    step s = .next { s with inbox := rest, rsp := none } := by
  have hp : s.position = 0 := (position_eq_zero_iff s).mpr hs
  simp [step, nextAction, hp, hin, hostAction, State.takeInput]

theorem cmdReady_of_idle {s : State} (hs : s.Idle) : s.cmdReady = s.rsp.isNone := by
  rw [State.cmdReady, decide_eq_true ((position_eq_zero_iff s).mpr hs), Bool.true_and]

/-- Settles O44: nothing asked, nothing done; a taken response leaves the port empty, and the idle machine ready. -/
theorem idleMachineHoldsItsState : Obligations.IdleMachineHoldsItsState :=
  ⟨fun _ hs hin => step_hold hs hin,
    fun _ _ hs hin => ⟨_, step_takeResponse hs hin, rfl, cmdReady_of_idle hs⟩⟩

theorem execAbsorb_fault (b : Byte) {s : State} (hst : s.st ≠ .finalized) (hcnt : 64 ≤ s.bufcnt.toNat) :
    execAbsorb b s = .fault .bufcntRange := by
  have hfeed : ¬ s.canFeed = true := fun h => absurd ((canFeed_iff s).mp h) (by omega)
  rw [execAbsorb, if_neg hst, if_neg hfeed]

theorem execFinal_fault {s : State} (hst : s.st ≠ .finalized) (hcnt : 64 ≤ s.bufcnt.toNat) :
    execFinal s = .fault .bufcntRange := by
  have hfeed : ¬ s.canFeed = true := fun h => absurd ((canFeed_iff s).mp h) (by omega)
  rw [execFinal, if_neg hst, if_neg hfeed]

/-- Settles O45: each stop is the last branch of its meaning. -/
theorem stopsOutsideTheRules : Obligations.StopsOutsideTheRules :=
  ⟨fun b _ hst hcnt => ⟨execAbsorb_fault b hst hcnt, execFinal_fault hst hcnt⟩,
    fun _ _ hk => if_neg (by omega), fun _ _ hk => if_neg (by omega),
    fun _ hlegal hreset => step_badPosition hreset hlegal⟩

/-! The loading interface. -/

theorem tableWord_of_legal {w : BitVec 16} {i : Instr} (hw : decodeCmd16 w = .ok i) :
    tableWord 16 w.toNat = some (.cmd16 w) := by
  simpa [tableWord, hw] using w.isLt

/-- A position in 16 bits has opcode 0, so it is no command word. -/
theorem refused_position (p : BitVec 10) : Refused (decodeCmd16 (p.setWidth 16)) := by
  have hop : cmdOp (p.setWidth 16) = 0 := by
    apply BitVec.eq_of_toNat_eq
    rw [cmdOp_toNat, BitVec.toNat_setWidth, show (0 : BitVec 4).toNat = 0 from rfl]
    omega
  exact (refused_decodeCmd16_iff _).mpr (.inl hop)

theorem tableWord_of_position {p : BitVec 10} {i : Instr} (hp : decodeUseq p = .ok i) :
    tableWord 16 p.toNat = some (.useq p) := by
  have h16 : p.toNat < 65536 := by omega
  obtain ⟨e, he⟩ := refused_iff_error.mp (refused_position p)
  simp [tableWord, h16, he, hp, p.isLt]

/-- A micro-operation stands at the position it was decoded from. -/
theorem positionOf_decodeUseq {p : BitVec 10} {i : Instr} (hp : decodeUseq p = .ok i) :
    ∃ pos, positionOf i = some pos ∧ seqWord pos.1.code pos.2 = p := by
  rcases (decodeUseq_eq_ok_iff p i).mp hp with
    ⟨j, rfl, rfl⟩ | ⟨k, _, _, rfl, rfl⟩ | ⟨rfl, rfl⟩ | ⟨k, _, rfl, rfl⟩ | ⟨rfl, rfl⟩
  all_goals exact ⟨_, rfl, rfl⟩

theorem withFetchWord_position {p : BitVec 10} {i : Instr} (hp : decodeUseq p = .ok i) (s : State) :
    ∃ pos, seqWord pos.1.code pos.2 = p ∧
      s.withFetchWord 16 p.toNat = { s.setPosition pos with inbox := dropResets s.inbox } := by
  obtain ⟨pos, hpos, hword⟩ := positionOf_decodeUseq hp
  exact ⟨pos, hword, by simp only [State.withFetchWord, tableWord_of_position hp, placeWord, hp, hpos]⟩

/-- Settles O43: the command stands at the head of the inputs of an idle machine; the position stands in `(PHASE, T)`. -/
theorem placedWordRunsNext : Obligations.PlacedWordRunsNext := by
  refine ⟨fun w i s hw => ?_, fun p i s hp hin => ?_⟩
  · rw [State.withFetchWord, tableWord_of_legal hw]
    exact (step_command (rest := s.inbox) ⟨rfl, rfl⟩ rfl).trans (runWord_legal hw _)
  · obtain ⟨pos, hword, hplaced⟩ := withFetchWord_position hp s
    have hinbox : dropResets s.inbox = s.inbox := by rw [hin]; rfl
    rw [hinbox] at hplaced
    refine ⟨s.setPosition pos, ?_, hword, rfl⟩
    have hreset : (s.setPosition pos).inbox.head? ≠ some .reset := by simp [hin]
    rw [hplaced]
    exact step_micro hreset ((congrArg decodeUseq hword).trans hp)

end Sys2Proof.Machine
end

section
/-! Everything an accepted command word and a position of the table can do, as one list of effects each. Every statement
about all steps is a case analysis over them. -/

namespace Sys2Proof.Machine

/-- What INIT leaves (41_context_commands.md R121). -/
def freshContext (s : State) : State :=
  respond .ok 0 { s.clearErrors with h := Config.iv, bufcnt := 0, len := 0, st := .empty }

/-- What ABSORB makes of the state the feeder leaves (R122). -/
def State.afterAbsorb (u : State) (len : BitVec 64) : State := respond .ok 0 { u with len := len, st := .accumulating }

/-- What FINAL makes of the state the feeder leaves (R123). -/
def State.afterFinal (u : State) : State := respond .ok 0 { u with st := .finalized }

/-! The fields of the last two. -/
@[simp] theorem afterAbsorb_h (u : State) (len : BitVec 64) : (u.afterAbsorb len).h = u.h := rfl
@[simp] theorem afterAbsorb_buf (u : State) (len : BitVec 64) : (u.afterAbsorb len).buf = u.buf := rfl
@[simp] theorem afterAbsorb_bufcnt (u : State) (len : BitVec 64) : (u.afterAbsorb len).bufcnt = u.bufcnt := rfl
@[simp] theorem afterAbsorb_len (u : State) (len : BitVec 64) : (u.afterAbsorb len).len = len := rfl
@[simp] theorem afterAbsorb_st (u : State) (len : BitVec 64) : (u.afterAbsorb len).st = .accumulating := rfl
@[simp] theorem afterAbsorb_uerr (u : State) (len : BitVec 64) : (u.afterAbsorb len).uerr = u.uerr := rfl
@[simp] theorem afterAbsorb_ierr (u : State) (len : BitVec 64) : (u.afterAbsorb len).ierr = u.ierr := rfl
@[simp] theorem afterAbsorb_phase (u : State) (len : BitVec 64) : (u.afterAbsorb len).phase = u.phase := rfl
@[simp] theorem afterAbsorb_t (u : State) (len : BitVec 64) : (u.afterAbsorb len).t = u.t := rfl
@[simp] theorem afterAbsorb_inbox (u : State) (len : BitVec 64) : (u.afterAbsorb len).inbox = u.inbox := rfl
@[simp] theorem afterAbsorb_rsp (u : State) (len : BitVec 64) : (u.afterAbsorb len).rsp = some (rspWord .ok 0) := rfl
@[simp] theorem afterAbsorb_epoch (u : State) (len : BitVec 64) : (u.afterAbsorb len).epoch = u.epoch := rfl
@[simp] theorem afterFinal_h (u : State) : u.afterFinal.h = u.h := rfl
@[simp] theorem afterFinal_buf (u : State) : u.afterFinal.buf = u.buf := rfl
@[simp] theorem afterFinal_bufcnt (u : State) : u.afterFinal.bufcnt = u.bufcnt := rfl
@[simp] theorem afterFinal_len (u : State) : u.afterFinal.len = u.len := rfl
@[simp] theorem afterFinal_st (u : State) : u.afterFinal.st = .finalized := rfl
@[simp] theorem afterFinal_uerr (u : State) : u.afterFinal.uerr = u.uerr := rfl
@[simp] theorem afterFinal_ierr (u : State) : u.afterFinal.ierr = u.ierr := rfl
@[simp] theorem afterFinal_phase (u : State) : u.afterFinal.phase = u.phase := rfl
@[simp] theorem afterFinal_t (u : State) : u.afterFinal.t = u.t := rfl
@[simp] theorem afterFinal_inbox (u : State) : u.afterFinal.inbox = u.inbox := rfl
@[simp] theorem afterFinal_rsp (u : State) : u.afterFinal.rsp = some (rspWord .ok 0) := rfl
@[simp] theorem afterFinal_epoch (u : State) : u.afterFinal.epoch = u.epoch := rfl

theorem exec_absorb (b : Byte) {s : State} (hst : s.st ≠ .finalized) (hcnt : s.bufcnt.toNat ≤ 63) :
    exec (.absorb b) s = .next ((feed b s).afterAbsorb (s.len + 1)) := execAbsorb_next b hst hcnt

theorem exec_final {s : State} (hst : s.st ≠ .finalized) (hcnt : s.bufcnt.toNat ≤ 63) :
    exec .final s = .next (feedPadding s).afterFinal := execFinal_next hst hcnt

/-- The effects of an accepted command word: an exception, one of the three context commands where it executes, or a byte
read out. -/
inductive CommandEffect (w : BitVec 16) (s : State) : State → Prop where
  | raised (cause : Cause) : CommandEffect w s (raise cause s)
  | init (hw : w = 0x1000) : CommandEffect w s (freshContext s)
  | absorb (b : Byte) (hw : w = 0x2000 ||| b.setWidth 16) (hst : s.st ≠ .finalized) (hcnt : s.bufcnt.toNat ≤ 63) :
      CommandEffect w s ((feed b s).afterAbsorb (s.len + 1))
  | final (hw : w = 0x3000) (hst : s.st ≠ .finalized) (hcnt : s.bufcnt.toNat ≤ 63) :
      CommandEffect w s (feedPadding s).afterFinal
  | read (data : Byte) (hop : cmdOp w = 0x4 ∨ cmdOp w = 0x5) : CommandEffect w s (respond .ok data s)

/-- What an accepted word leads to is one of the effects. -/
theorem commandEffect_of_runWord {w : BitVec 16} {s t : State} (h : runWord w s = .next t) : CommandEffect w s t := by
  rcases hdec : decodeCmd16 w with e | i
  · rw [runWord_refused (refused_iff_error.mpr ⟨e, hdec⟩)] at h
    cases h
    exact .raised _
  rw [runWord_legal hdec] at h
  rcases (decodeCmd16_eq_ok_iff w i).mp hdec with
    ⟨hw, rfl⟩ | ⟨b, hw, rfl⟩ | ⟨hw, rfl⟩ | ⟨k, _, hw, rfl⟩ | ⟨k, _, hw, rfl⟩
  · cases h
    exact .init hw
  · rcases execAbsorb_cases h with ⟨_, rfl⟩ | ⟨hst, hcnt, rfl⟩
    · exact .raised _
    · exact .absorb b (hw.trans (cmdWord_eq_or 0x2 b)) hst hcnt
  · rcases execFinal_cases h with ⟨_, rfl⟩ | ⟨hst, hcnt, rfl⟩
    · exact .raised _
    · exact .final hw hst hcnt
  · have hop : cmdOp w = 0x4 := hw ▸ cmdOp_cmdWord _ _
    rcases execRdd_cases h with rfl | rfl | ⟨_, rfl⟩
    · exact .raised _
    · exact .raised _
    · exact .read _ (.inl hop)
  · have hop : cmdOp w = 0x5 := hw ▸ cmdOp_cmdWord _ _
    rcases execRds_cases h with rfl | rfl
    · exact .raised _
    · exact .read _ (.inr hop)

/-- With a count up to 63 every word, legal or not, completes. -/
theorem runWord_completes (w : BitVec 16) {s : State} (hcnt : s.bufcnt.toNat ≤ 63) : ∃ t, runWord w s = .next t := by
  rcases hdec : decodeCmd16 w with e | i
  · exact ⟨_, runWord_refused (refused_iff_error.mpr ⟨e, hdec⟩) s⟩
  rw [runWord_legal hdec]
  rcases (decodeCmd16_eq_ok_iff w i).mp hdec with
    ⟨_, rfl⟩ | ⟨b, _, rfl⟩ | ⟨_, rfl⟩ | ⟨k, hk, _, rfl⟩ | ⟨k, hk, _, rfl⟩
  · exact ⟨_, rfl⟩
  · obtain ⟨t, ht, -⟩ := exec_absorb_st_rsp b hcnt
    exact ⟨t, ht⟩
  · obtain ⟨t, ht, -⟩ := exec_final_st_rsp hcnt
    exact ⟨t, ht⟩
  · obtain ⟨t, _, ht, -⟩ := exec_rdd_st_rsp hk s
    exact ⟨t, ht⟩
  · exact ⟨_, execRds_legal hk s⟩

/-! What every effect of a command keeps. -/

section
variable {w : BitVec 16} {s t : State} (h : CommandEffect w s t)
include h

theorem CommandEffect.inbox : t.inbox = s.inbox := by
  cases h with
  | raised cause => cases cause <;> rfl
  | init => rfl
  | absorb b => rw [afterAbsorb_inbox, feed_inbox]
  | final => rw [afterFinal_inbox, feedPadding_inbox]
  | read => rfl

theorem CommandEffect.idle (hs : s.Idle) : t.Idle := by
  cases h with
  | raised cause => cases cause <;> exact hs
  | init => exact hs
  | absorb b =>
    rw [State.Idle, afterAbsorb_phase, afterAbsorb_t]
    exact feed_idle b hs
  | final =>
    rw [State.Idle, afterFinal_phase, afterFinal_t]
    exact feedPadding_idle hs
  | read => exact hs

/-- The response of every effect (30_encoding.md R74, R75): data comes with an OK read alone. -/
theorem CommandEffect.rsp : ∃ status data, t.rsp = some (rspWord status data) ∧ (status ≠ .ok → data = 0) ∧
    (cmdOp w ≠ 0x4 → cmdOp w ≠ 0x5 → data = 0) := by
  cases h with
  | raised cause => cases cause <;> exact ⟨_, 0, rfl, fun _ => rfl, fun _ _ => rfl⟩
  | init => exact ⟨_, 0, rfl, fun _ => rfl, fun _ _ => rfl⟩
  | absorb => exact ⟨_, 0, rfl, fun _ => rfl, fun _ _ => rfl⟩
  | final => exact ⟨_, 0, rfl, fun _ => rfl, fun _ _ => rfl⟩
  | read data hop =>
    exact ⟨.ok, data, rfl, fun hok => absurd rfl hok, fun h4 h5 => absurd hop (not_or.mpr ⟨h4, h5⟩)⟩

theorem CommandEffect.wf (hm : Memory.wf s.buf = true) : Memory.wf t.buf = true := by
  cases h with
  | raised cause => cases cause <;> exact hm
  | init => exact hm
  | absorb b _ _ hcnt =>
    rw [afterAbsorb_buf]
    exact feed_wf b hcnt hm
  | final _ _ hcnt =>
    rw [afterFinal_buf]
    exact (feedPadding_wf hcnt hm).1
  | read => exact hm

end

/-! The positions of the table. -/

/-- The effects of the micro-operation at a position of the table. -/
inductive MicroEffect (s : State) : State → Prop where
  | load (hphase : s.phase = .load) (ht : s.t.toNat ≤ 15) : MicroEffect s (loadOp s.t.toNat s)
  | expand (hphase : s.phase = .expand) (hlow : 16 ≤ s.t.toNat) (hhigh : s.t.toNat ≤ 79) :
      MicroEffect s (expandOp s.t.toNat s)
  | seed (hphase : s.phase = .seed) (ht : s.t = 0) : MicroEffect s (seedOp s)
  | round (hphase : s.phase = .round) (ht : s.t.toNat ≤ 79) : MicroEffect s (roundOp s.t.toNat s)
  | fold (hphase : s.phase = .fold) (ht : s.t = 0) : MicroEffect s (foldOp s)

theorem seqWord_inj {phase phase' : BitVec 3} {t t' : BitVec 7} (h : seqWord phase t = seqWord phase' t') :
    phase = phase' ∧ t = t' := by
  have hphase := congrArg seqPhase h
  have ht := congrArg seqT h
  rw [seqPhase_seqWord, seqPhase_seqWord] at hphase
  rw [seqT_seqWord, seqT_seqWord] at ht
  exact ⟨hphase, ht⟩

theorem phase_code_inj {phase phase' : Phase} (h : phase.code = phase'.code) : phase = phase' := by
  cases phase <;> cases phase' <;> simp_all [Phase.code]

/-- The state stands at the position its sequencer shows. -/
theorem position_eq_seqWord {s : State} {phase : Phase} {t : BitVec 7} (h : s.position = seqWord phase.code t) :
    s.phase = phase ∧ s.t = t := by
  obtain ⟨hphase, ht⟩ := seqWord_inj h
  exact ⟨phase_code_inj hphase, ht⟩

/-- What the micro-operation at a position leads to is one of the effects. -/
theorem microEffect_of_exec {i : Instr} {s t : State} (hdec : decodeUseq s.position = .ok i)
    (h : exec i s = .next t) : MicroEffect s t := by
  rcases (decodeUseq_eq_ok_iff _ i).mp hdec with
    ⟨j, hpos, rfl⟩ | ⟨k, hlow, hhigh, hpos, rfl⟩ | ⟨hpos, rfl⟩ | ⟨k, hk, hpos, rfl⟩ | ⟨hpos, rfl⟩
  · obtain ⟨hphase, ht⟩ := position_eq_seqWord (phase := .load) hpos
    have hindex : s.t.toNat = j.toNat := by
      rw [ht, BitVec.toNat_setWidth]
      omega
    cases h
    rw [← hindex]
    exact .load hphase (by omega)
  · obtain ⟨hphase, rfl⟩ := position_eq_seqWord (phase := .expand) hpos
    rw [exec_uexp hlow hhigh] at h
    cases h
    exact .expand hphase hlow hhigh
  · obtain ⟨hphase, ht⟩ := position_eq_seqWord (phase := .seed) hpos
    cases h
    exact .seed hphase ht
  · obtain ⟨hphase, rfl⟩ := position_eq_seqWord (phase := .round) hpos
    rw [exec_uround hk] at h
    cases h
    exact .round hphase hk
  · obtain ⟨hphase, ht⟩ := position_eq_seqWord (phase := .fold) hpos
    cases h
    exact .fold hphase ht

/-- The micro-operation at a position completes: its index is in range. -/
theorem exec_position_completes {i : Instr} {s : State} (hdec : decodeUseq s.position = .ok i) :
    ∃ t, exec i s = .next t := by
  rcases (decodeUseq_eq_ok_iff _ i).mp hdec with
    ⟨j, _, rfl⟩ | ⟨k, hlow, hhigh, _, rfl⟩ | ⟨_, rfl⟩ | ⟨k, hk, _, rfl⟩ | ⟨_, rfl⟩
  · exact ⟨_, rfl⟩
  · exact ⟨_, exec_uexp hlow hhigh s⟩
  · exact ⟨_, rfl⟩
  · exact ⟨_, exec_uround hk s⟩
  · exact ⟨_, rfl⟩

end Sys2Proof.Machine
end

section
/-! What every step keeps: the flags, the digest, the length, the chaining value, and the invariants (10_state.md R21,
R28, R30, R34). Each is a case analysis over the effects of a step. -/

namespace Sys2Proof.Machine

/-- The effects of a step. -/
inductive StepEffect (s : State) : State → Prop where
  | reset (hin : s.inbox.head? = some .reset) : StepEffect s (applyReset s)
  | hold (hs : s.Idle) : StepEffect s s
  | takeResponse (hs : s.Idle) : StepEffect s s.takeInput
  | command {w : BitVec 16} {t : State} (hs : s.Idle) (hin : s.inbox.head? = some (.command w))
      (h : CommandEffect w s.takeInput t) : StepEffect s t
  | micro {t : State} (hs : ¬ s.Idle) (h : MicroEffect s t) : StepEffect s t

theorem stepEffect_of_step {s t : State} (h : step s = .next t) : StepEffect s t := by
  rcases step_cases h with
    ⟨hin, rfl⟩ | ⟨_, hs, _, rfl⟩ | ⟨_, hs, _, rfl⟩ | ⟨w, hs, hin, hrun⟩ | ⟨i, _, hs, hdec, hexec⟩
  · exact .reset hin
  · exact .hold hs
  · exact .takeResponse hs
  · exact .command hs hin (commandEffect_of_runWord hrun)
  · exact .micro hs (microEffect_of_exec hdec hexec)

theorem MicroEffect.sameOutsideCore {s t : State} (h : MicroEffect s t) : SameOutsideCore s t := by
  cases h with
  | load => exact loadOp_sameOutsideCore _ s
  | expand => exact expandOp_sameOutsideCore _ s
  | seed => exact seedOp_sameOutsideCore s
  | round => exact roundOp_sameOutsideCore _ s
  | fold => exact foldOp_sameOutsideCore s

/-- uFOLD alone writes the chaining value. -/
theorem MicroEffect.h {s t : State} (h : MicroEffect s t) :
    t.h = s.h ∨ (s.phase = .fold ∧ s.t = 0 ∧ t.h = foldChain s.h s.wk) := by
  cases h with
  | load => exact .inl rfl
  | expand => exact .inl rfl
  | seed => exact .inl rfl
  | round => exact .inl rfl
  | fold hphase ht => exact .inr ⟨hphase, ht, rfl⟩

/-! The flags. -/

/-- Settles O37: a command raises flags or leaves them, but for INIT; the rest of a step leaves them. -/
theorem errorFlagsAreSticky : Obligations.ErrorFlagsAreSticky := by
  intro s t hstep hreset hinit
  cases stepEffect_of_step hstep with
  | reset hin => exact absurd hin hreset
  | hold => exact ⟨id, id⟩
  | takeResponse => exact ⟨id, id⟩
  | command hs hin h =>
    cases h with
    | raised cause =>
      cases cause with
      | usageError => exact ⟨fun _ => rfl, id⟩
      | illegalCommand => exact ⟨id, fun _ => rfl⟩
    | init hw => exact absurd ⟨hs, hw ▸ hin⟩ hinit
    | absorb b =>
      rw [afterAbsorb_uerr, afterAbsorb_ierr, feed_uerr, feed_ierr]
      exact ⟨id, id⟩
    | final =>
      rw [afterFinal_uerr, afterFinal_ierr, feedPadding_uerr, feedPadding_ierr]
      exact ⟨id, id⟩
    | read => exact ⟨id, id⟩
  | micro _ h =>
    obtain ⟨-, -, -, -, huerr, hierr, -⟩ := h.sameOutsideCore
    rw [huerr, hierr]
    exact ⟨id, id⟩

/-- Settles O38: the only effect that sets a flag is its own exception. -/
theorem errorFlagsAreSetByErrorsOnly : Obligations.ErrorFlagsAreSetByErrorsOnly := by
  intro s t hstep
  have clash {p : Prop} {flag : Bool} (hoff : flag = false) (hon : flag = true) : p :=
    absurd (hoff.symm.trans hon) Bool.false_ne_true
  cases stepEffect_of_step hstep with
  | reset => exact ⟨fun _ hon => clash rfl hon, fun _ hon => clash rfl hon⟩
  | hold => exact ⟨clash, clash⟩
  | takeResponse => exact ⟨clash, clash⟩
  | command hs hin h =>
    cases h with
    | raised cause =>
      cases cause with
      | usageError => exact ⟨fun _ _ => ⟨rfl, rfl⟩, clash⟩
      | illegalCommand => exact ⟨clash, fun _ _ => ⟨rfl, rfl⟩⟩
    | init => exact ⟨fun _ hon => clash rfl hon, fun _ hon => clash rfl hon⟩
    | absorb b =>
      rw [afterAbsorb_uerr, afterAbsorb_ierr, feed_uerr, feed_ierr]
      exact ⟨clash, clash⟩
    | final =>
      rw [afterFinal_uerr, afterFinal_ierr, feedPadding_uerr, feedPadding_ierr]
      exact ⟨clash, clash⟩
    | read => exact ⟨clash, clash⟩
  | micro _ h =>
    obtain ⟨-, -, -, -, huerr, hierr, -⟩ := h.sameOutsideCore
    rw [huerr, hierr]
    exact ⟨clash, clash⟩

/-! The digest, the length and the chaining value. -/

/-- Settles O39: the commands that would change a finalised context are refused. -/
theorem finalizedDigestStays : Obligations.FinalizedDigestStays := by
  intro s t hstep hs hst hreset hinit
  cases stepEffect_of_step hstep with
  | reset hin => exact absurd hin hreset
  | hold => exact ⟨hst, rfl, rfl, rfl, hs⟩
  | takeResponse => exact ⟨hst, rfl, rfl, rfl, hs⟩
  | command _ hin h =>
    cases h with
    | raised cause => cases cause <;> exact ⟨hst, rfl, rfl, rfl, hs⟩
    | init hw => exact absurd (hw ▸ hin) hinit
    | absorb _ _ hopen => exact absurd hst hopen
    | final _ hopen => exact absurd hst hopen
    | read => exact ⟨hst, rfl, rfl, rfl, hs⟩
  | micro hbusy => exact absurd hs hbusy

theorem head?_eq_some_iff {s : State} {input : HostInput} :
    s.inbox.head? = some input ↔ ∃ rest, s.inbox = input :: rest := by
  cases s.inbox with
  | nil => simp
  | cons x rest => simp [eq_comm]

/-- An ABSORB as R77 writes its word, from the head of the inputs. -/
theorem step_absorb {b : Byte} {s : State} (hs : s.Idle)
    (hin : s.inbox.head? = some (.command (0x2000 ||| b.setWidth 16))) :
    ∃ rest, step s = exec (.absorb b) { s with inbox := rest, rsp := none } := by
  obtain ⟨rest, hrest⟩ := head?_eq_some_iff.mp hin
  have hw : decodeCmd16 (0x2000 ||| b.setWidth 16) = .ok (.absorb b) :=
    (legalCommandWords _ _).mpr (.inr (.inl ⟨b, rfl, rfl⟩))
  exact ⟨rest, (step_command hs hrest).trans (runWord_legal hw _)⟩

/-- INIT from the head of the inputs. -/
theorem step_init {s : State} (hs : s.Idle) (hin : s.inbox.head? = some (.command 0x1000)) :
    ∃ rest, step s = .next (freshContext { s with inbox := rest, rsp := none }) := by
  obtain ⟨rest, hrest⟩ := head?_eq_some_iff.mp hin
  exact ⟨rest, (step_command hs hrest).trans (runWord_legal (i := .init) rfl _)⟩

theorem step_reset_head {s : State} (hin : s.inbox.head? = some .reset) : step s = .next (applyReset s) := by
  obtain ⟨rest, hrest⟩ := head?_eq_some_iff.mp hin
  exact step_reset hrest

/-- Settles O40: the first two clauses run the word that is named; in the third the effects that write `LEN` are the ones
excluded. -/
theorem lengthCountsAbsorbedBytes : Obligations.LengthCountsAbsorbedBytes := by
  intro s t hstep
  refine ⟨?_, ?_, fun hreset hinit habsorb => ?_⟩
  · rintro (hin | ⟨hs, hin⟩)
    · rw [step_reset_head hin] at hstep
      cases hstep
      rfl
    · obtain ⟨rest, hrun⟩ := step_init hs hin
      rw [hrun] at hstep
      cases hstep
      rfl
  · rintro ⟨hs, hst, b, hin⟩
    obtain ⟨rest, hrun⟩ := step_absorb hs hin
    rw [hrun] at hstep
    rcases execAbsorb_cases hstep with ⟨hfin, -⟩ | ⟨-, -, rfl⟩
    · exact absurd hfin hst
    · exact len_succ_toNat s.len
  · cases stepEffect_of_step hstep with
    | reset hin => exact absurd hin hreset
    | hold => rfl
    | takeResponse => rfl
    | command hs hin h =>
      cases h with
      | raised cause => cases cause <;> rfl
      | init hw => exact absurd ⟨hs, hw ▸ hin⟩ hinit
      | absorb b hw hst => exact absurd ⟨hs, hst, b, hw ▸ hin⟩ habsorb
      | final => rw [afterFinal_len, feedPadding_len, takeInput_len]
      | read => rfl
    | micro _ h =>
      obtain ⟨-, -, hlen, -⟩ := h.sameOutsideCore
      exact hlen

/-- Before the 64th byte the feeder leaves the chaining value alone. -/
theorem feed_h_of_lt (b : Byte) {s : State} (hcnt : s.bufcnt.toNat < 63) : (feed b s).h = s.h := by
  rw [feed_of_lt b hcnt, storeByte_h]

/-- Settles O41: effect by effect; an ABSORB writes `H` only where it fills the buffer. -/
theorem chainingValueWriters : Obligations.ChainingValueWriters := by
  intro s t hstep
  cases stepEffect_of_step hstep with
  | reset hin => exact .inr (.inl ⟨.inl hin, rfl⟩)
  | hold => exact .inl rfl
  | takeResponse => exact .inl rfl
  | command hs hin h =>
    cases h with
    | raised cause => cases cause <;> exact .inl rfl
    | init hw => exact .inr (.inl ⟨.inr ⟨hs, hw ▸ hin⟩, rfl⟩)
    | absorb b hw hst hcnt =>
      rcases Nat.lt_or_eq_of_le hcnt with hlt | hfull
      · left
        rw [afterAbsorb_h, feed_h_of_lt b hlt, takeInput_h]
      · exact .inr (.inr (.inr (.inl ⟨hs, hst, hfull, b, hw ▸ hin⟩)))
    | final hw hst => exact .inr (.inr (.inr (.inr ⟨hs, hst, hw ▸ hin⟩)))
    | read => exact .inl rfl
  | micro _ h =>
    rcases h.h with hkept | hfold
    · exact .inl hkept
    · exact .inr (.inr (.inl hfold))

end Sys2Proof.Machine
end

section
/-! Every command is answered, and the invariants (10_state.md R34, 30_encoding.md R74 to R76, R80). -/

namespace Sys2Proof.Machine

/-! The fields of a response word. -/

theorem rspWord_zeros (status : RspStatus) (data : Byte) : (rspWord status data).extractLsb' 10 6 = 0 := by
  apply BitVec.eq_of_toNat_eq
  rw [BitVec.extractLsb'_toNat, rspWord_toNat, Nat.shiftRight_eq_div_pow, show (0 : BitVec 6).toNat = 0 from rfl]
  omega

theorem rspWord_status (status : RspStatus) (data : Byte) : (rspWord status data).extractLsb' 8 2 = status.code := by
  apply BitVec.eq_of_toNat_eq
  rw [BitVec.extractLsb'_toNat, rspWord_toNat, Nat.shiftRight_eq_div_pow]
  omega

theorem rspWord_data (status : RspStatus) (data : Byte) : (rspWord status data).extractLsb' 0 8 = data := by
  apply BitVec.eq_of_toNat_eq
  rw [BitVec.extractLsb'_toNat, rspWord_toNat, Nat.shiftRight_zero]
  omega

theorem status_code_ne_three (status : RspStatus) : status.code ≠ 3 := by cases status <;> decide

/-- Settles O36: the word completes, its effect carries one response word, and the sequencer stays idle. -/
theorem everyCommandIsAnswered : Obligations.EveryCommandIsAnswered := by
  intro w s rest hs hin hcnt
  obtain ⟨t, hrun⟩ := runWord_completes w (s := { s with inbox := rest, rsp := none }) hcnt
  have heffect := commandEffect_of_runWord hrun
  obtain ⟨status, data, hrsp, hstatus, hop⟩ := heffect.rsp
  have hidle : t.Idle := heffect.idle hs
  have hinbox : t.inbox = rest := heffect.inbox
  refine ⟨t, _, (step_command hs hin).trans hrun, hrsp, hinbox, hidle, ?_, ?_, rspWord_zeros _ _, ?_, ?_, ?_, ?_⟩
  · rw [State.rspValid, hrsp]
    rfl
  · rw [cmdReady_of_idle hidle, hrsp]
    rfl
  · rw [rspWord_status]
    exact status_code_ne_three status
  · rw [rspWord_status, rspWord_data]
    exact fun hcode => hstatus fun hok => hcode (hok ▸ rfl)
  · rw [rspWord_data]
    exact hop
  · exact fun w' rest' hrest => step_command hidle (hinbox.trans hrest)

/-! The count over a list of bytes fed. -/

theorem feedAll_count (bytes : List Byte) {s : State} (hcnt : s.bufcnt.toNat ≤ 63) :
    (feedAll bytes s).bufcnt.toNat = (s.bufcnt.toNat + bytes.length) % 64 := by
  induction bytes generalizing s with
  | nil => exact (Nat.mod_eq_of_lt (Nat.lt_succ_of_le hcnt)).symm
  | cons b bytes ih =>
    rw [feedAll_cons, ih (feed_count_le b hcnt), feed_count b hcnt, List.length_cons]
    omega

/-- The padding sequence ends with the count drained. -/
theorem feedPadding_bufcnt {s : State} (hcnt : s.bufcnt.toNat ≤ 63) : (feedPadding s).bufcnt = 0 := by
  apply BitVec.eq_of_toNat_eq
  rw [feedPadding_eq_feedAll_padseq hcnt, feedAll_count _ hcnt, padseq_length hcnt,
    show (0 : BitVec 7).toNat = 0 from rfl]
  split <;> omega

/-! The boundary invariant. -/

theorem boundaryInv_afterReset (epoch : Nat) : BoundaryInv (State.afterReset epoch) :=
  ⟨wf_nil, Nat.zero_le _, ⟨rfl, rfl⟩, fun _ => ⟨rfl, rfl, rfl⟩, fun _ => rfl, nofun, fun _ => rfl⟩

/-- Settles O47: nothing is pending after a reset. -/
theorem boundaryInvAtReset : Obligations.BoundaryInvAtReset := boundaryInv_afterReset 0

/-- INIT needs nothing of the state before it but canonical memory and an idle sequencer. -/
theorem boundaryInv_freshContext {s : State} (hm : Memory.wf s.buf = true) (hs : s.Idle) :
    BoundaryInv (freshContext s) :=
  ⟨hm, Nat.zero_le _, hs, fun _ => ⟨rfl, rfl, rfl⟩, fun _ => rfl, nofun, fun _ => rfl⟩

/-- Every pending byte is written after one more is fed. -/
theorem feed_pending_written (b : Byte) {s : State} (hcnt : s.bufcnt.toNat ≤ 63)
    (hpending : ∀ i, i < s.bufcnt.toNat → Memory.lookup i s.buf ≠ none) {i : Nat} (hi : i < (feed b s).bufcnt.toNat) :
    Memory.lookup i (feed b s).buf ≠ none := by
  rw [feed_count b hcnt] at hi
  rw [feed_buf]
  rcases Nat.lt_or_eq_of_le (show i ≤ s.bufcnt.toNat by omega) with hlt | rfl
  · exact lookup_write_ne_none b (hpending i hlt)
  · rw [lookup_write_same]
    exact Option.some_ne_none b

theorem boundaryInv_afterAbsorb (b : Byte) {s : State} (hst : s.st ≠ .finalized) (h : BoundaryInv s) :
    BoundaryInv ((feed b s).afterAbsorb (s.len + 1)) := by
  obtain ⟨hm, hcnt, hs, -, hlen, hpending, -⟩ := h
  have hcount : (feed b s).bufcnt.toNat = (s.len + 1).toNat % 64 := by
    rw [feed_count b hcnt, hlen hst, len_succ_toNat]
    omega
  refine ⟨feed_wf b hcnt hm, feed_count_le b hcnt, feed_idle b hs, nofun, fun _ => hcount, ?_, nofun⟩
  exact fun _ => feed_pending_written b hcnt hpending

/-- FINAL needs a drained feeder. -/
theorem boundaryInv_afterFinal {u : State} (hm : Memory.wf u.buf = true) (hs : u.Idle) (hcnt : u.bufcnt = 0) :
    BoundaryInv u.afterFinal := by
  refine ⟨hm, hcnt ▸ Nat.zero_le _, hs, nofun, fun hopen => absurd rfl hopen, fun i hi => ?_, fun _ => hcnt⟩
  rw [afterFinal_bufcnt, hcnt] at hi
  exact absurd hi (Nat.not_lt_zero i)

/-- Settles O48: effect by effect; a busy sequencer is excluded by the invariant. -/
theorem boundaryInvKept : Obligations.BoundaryInvKept := by
  intro s t hinv hstep
  obtain ⟨hm, -, hs, -⟩ := id hinv
  cases stepEffect_of_step hstep with
  | reset => exact boundaryInv_afterReset (s.epoch + 1)
  | hold => exact hinv
  | takeResponse => exact hinv
  | command _ _ h =>
    cases h with
    | raised cause => cases cause <;> exact hinv
    | init => exact boundaryInv_freshContext hm hs
    | absorb b _ hst => exact boundaryInv_afterAbsorb b hst hinv
    | final _ _ hcnt =>
      exact boundaryInv_afterFinal (feedPadding_wf hcnt hm).1 (feedPadding_idle hs) (feedPadding_bufcnt hcnt)
    | read => exact hinv
  | micro hbusy => exact absurd hs hbusy

/-! The invariant of every state. -/

/-- The positions of R76, the idle one included, by the phase and the index as a number. -/
def LegalAt : Phase × Nat → Prop
  | (.idle, t) => t = 0
  | (.load, t) => t ≤ 15
  | (.expand, t) => 16 ≤ t ∧ t ≤ 79
  | (.seed, t) => t = 0
  | (.round, t) => t ≤ 79
  | (.fold, t) => t = 0

theorem positionLegal_of_idle {s : State} (hs : s.Idle) : PositionLegal s := .inl ((position_eq_zero_iff s).mpr hs)

theorem positionLegal_of_legalAt {s : State} (h : LegalAt (s.phase, s.t.toNat)) : PositionLegal s := by
  have zero (ht : s.t.toNat = 0) : s.t = 0 := BitVec.eq_of_toNat_eq ht
  unfold PositionLegal State.position
  cases hphase : s.phase with
  | idle =>
    rw [hphase] at h
    exact .inl (by rw [zero h]; rfl)
  | load =>
    rw [hphase] at h
    rw [eq_setWidth_of_le_15 h]
    exact .inr ⟨_, decodeUseq_uload _⟩
  | expand =>
    rw [hphase] at h
    exact .inr ⟨_, decodeUseq_uexp h.1 h.2⟩
  | seed =>
    rw [hphase] at h
    exact .inr ⟨_, by rw [zero h]; rfl⟩
  | round =>
    rw [hphase] at h
    exact .inr ⟨_, decodeUseq_uround h⟩
  | fold =>
    rw [hphase] at h
    exact .inr ⟨_, by rw [zero h]; rfl⟩

/-- The successor of each position of the table is one (40_compression_core.md R99). -/
theorem MicroEffect.positionLegal {s t : State} (h : MicroEffect s t) : PositionLegal t := by
  apply positionLegal_of_legalAt
  cases h with
  | load _ ht =>
    rw [loadOp_phase, loadOp_t, nextPosition_load_toNat ht]
    split
    · exact Nat.succ_le_of_lt ‹_›
    · exact ⟨by decide, by decide⟩
  | expand _ hlow hhigh =>
    rw [expandOp_phase, expandOp_t, nextPosition_expand_toNat hhigh]
    split
    · exact ⟨Nat.le_succ_of_le hlow, Nat.succ_le_of_lt ‹_›⟩
    · rfl
  | seed => exact Nat.zero_le 79
  | round _ ht =>
    rw [roundOp_phase, roundOp_t, nextPosition_round_toNat ht]
    split
    · exact Nat.succ_le_of_lt ‹_›
    · rfl
  | fold => rfl

/-- Settles O49: a command leaves the sequencer idle, a micro-operation leaves it at a successor. -/
theorem anywhereInvKept : Obligations.AnywhereInvKept := by
  rintro s t ⟨hm, hlegal⟩ hstep
  cases stepEffect_of_step hstep with
  | reset => exact ⟨wf_nil, positionLegal_of_idle ⟨rfl, rfl⟩⟩
  | hold => exact ⟨hm, hlegal⟩
  | takeResponse => exact ⟨hm, hlegal⟩
  | command hs _ h => exact ⟨h.wf hm, positionLegal_of_idle (h.idle hs)⟩
  | micro _ h =>
    obtain ⟨hbuf, -⟩ := h.sameOutsideCore
    exact ⟨hbuf ▸ hm, h.positionLegal⟩

/-- Settles O50: by what the step is asked to do. -/
theorem legalStatesAlwaysStep : Obligations.LegalStatesAlwaysStep := by
  intro s hlegal hcnt
  by_cases hreset : s.inbox.head? = some .reset
  · exact ⟨_, step_reset_head hreset⟩
  rcases hlegal with hpos | ⟨i, hdec⟩
  · have hs := (position_eq_zero_iff s).mp hpos
    rcases hin : s.inbox with _ | ⟨input, rest⟩
    · exact ⟨_, step_hold hs hin⟩
    cases input with
    | command w =>
      rw [step_command hs hin]
      exact runWord_completes w hcnt
    | takeResponse => exact ⟨_, step_takeResponse hs hin⟩
    | reset => exact ⟨_, step_reset hin⟩
  · rw [step_micro hreset hdec]
    exact exec_position_completes hdec

/-! Canonical memory. -/

/-- A memory whose addresses are all above `a` holds nothing at `a`. -/
theorem lookup_eq_none_of_above {m : Memory} {a : Nat} (h : ∀ c ∈ m, a < c.1) : Memory.lookup a m = none := by
  induction m with
  | nil => rfl
  | cons cell rest ih =>
    obtain ⟨k, v⟩ := cell
    have hk : k ≠ a := Nat.ne_of_gt (h (k, v) List.mem_cons_self)
    rw [Memory.lookup, if_neg hk]
    exact ih fun c hc => h c (List.mem_cons_of_mem _ hc)

/-- The first address of a rising memory is the least one that reads as written. -/
theorem lookup_cons_eq_none_of_lt {k a : Nat} {v : Byte} {rest : Memory}
    (h : ((k, v) :: rest : Memory).Pairwise fun x y => x.1 < y.1) (ha : a < k) :
    Memory.lookup a ((k, v) :: rest) = none := by
  apply lookup_eq_none_of_above
  intro c hc
  rcases List.mem_cons.mp hc with rfl | hrest
  · exact ha
  · exact Nat.lt_trans ha (List.rel_of_pairwise_cons h hrest)

theorem lookup_cons_self (k : Nat) (v : Byte) (rest : Memory) : Memory.lookup k ((k, v) :: rest) = some v := if_pos rfl

/-- Rising memories that read alike are equal: their first cells agree, and so do the rests. -/
theorem eq_of_lookup_eq {m m' : Memory} (hm : m.Pairwise fun x y => x.1 < y.1) (hm' : m'.Pairwise fun x y => x.1 < y.1)
    (h : ∀ a, Memory.lookup a m = Memory.lookup a m') : m = m' := by
  induction m generalizing m' with
  | nil =>
    cases m' with
    | nil => rfl
    | cons cell' rest' =>
      obtain ⟨k', v'⟩ := cell'
      simpa [lookup_cons_self] using h k'
  | cons cell rest ih =>
    obtain ⟨k, v⟩ := cell
    cases m' with
    | nil => simpa [lookup_cons_self] using h k
    | cons cell' rest' =>
      obtain ⟨k', v'⟩ := cell'
      have hk : k = k' := by
        rcases Nat.lt_trichotomy k k' with hlt | heq | hgt
        · simpa [lookup_cons_self, lookup_cons_eq_none_of_lt hm' hlt] using h k
        · exact heq
        · simpa [lookup_cons_self, lookup_cons_eq_none_of_lt hm hgt] using h k'
      subst hk
      have hv : v = v' := by simpa [lookup_cons_self] using h k
      subst hv
      obtain ⟨habove, hrest⟩ := List.pairwise_cons.mp hm
      obtain ⟨habove', hrest'⟩ := List.pairwise_cons.mp hm'
      congr 1
      refine ih hrest hrest' fun a => ?_
      by_cases ha : k = a
      · subst ha
        rw [lookup_eq_none_of_above habove, lookup_eq_none_of_above habove']
      · simpa [Memory.lookup, ha] using h a

/-- Settles O51: the canonical form is a rising list. -/
theorem canonicalMemoryIsUnique : Obligations.CanonicalMemoryIsUnique := fun m m' hm hm' h =>
  eq_of_lookup_eq ((wf_iff m).mp hm).1 ((wf_iff m').mp hm').1 h

end Sys2Proof.Machine
end

section
/-! What the feeder makes of a list of bytes: the chaining value over the full blocks, the count, and the bytes that
remain in the buffer (41_context_commands.md R120, R131). -/

namespace Sys2Proof.Machine

/-- The chaining value over the first blocks of a byte sequence, from any chaining value. -/
def chainFrom (h : Vector Word 5) (p : List Byte) : Nat → Vector Word 5
  | 0 => h
  | k + 1 => compress (chainFrom h p k) (blockOf p k)

theorem chainOver_eq_chainFrom (p : List Byte) (k : Nat) : chainOver p k = chainFrom Config.iv p k := by
  induction k with
  | zero => rfl
  | succ k ih => rw [chainOver, chainFrom, ih]

theorem blockOf_getElem (p : List Byte) (j : Nat) {i : Nat} (hi : i < 64) :
    (blockOf p j)[i] = p.getD (64 * j + i) 0 := Vector.getElem_ofFn hi

theorem blockOf_append {p : List Byte} {j : Nat} (hj : 64 * (j + 1) ≤ p.length) (q : List Byte) :
    blockOf (p ++ q) j = blockOf p j := by
  refine Vector.ext fun i hi => ?_
  rw [blockOf_getElem, blockOf_getElem, List.getD_append _ _ _ _ (by omega)]

/-- Bytes behind the blocks read do not matter. -/
theorem chainFrom_append (h : Vector Word 5) {p : List Byte} {k : Nat} (hk : 64 * k ≤ p.length) (q : List Byte) :
    chainFrom h (p ++ q) k = chainFrom h p k := by
  induction k with
  | zero => rfl
  | succ k ih => rw [chainFrom, chainFrom, ih (by omega), blockOf_append hk]

/-- From the chaining value `h`, the bytes `p` were fed. The buffer holds the last 64 of them, the first `known` excepted:
what the buffer holds of those is not said. Once a block has run, the sequencer is idle. -/
structure Fed (h : Vector Word 5) (known : Nat) (s : State) (p : List Byte) : Prop where
  known_le : known ≤ 64 * (p.length / 64)
  count : s.bufcnt.toNat = p.length % 64
  chain : s.h = chainFrom h p (p.length / 64)
  bytes : ∀ j, known ≤ j → j < p.length → p.length ≤ j + 64 → readBuf s (j % 64) = p.getD j 0
  idle : 64 ≤ p.length → s.Idle

theorem Fed.count_le {h : Vector Word 5} {known : Nat} {s : State} {p : List Byte} (hf : Fed h known s p) :
    s.bufcnt.toNat ≤ 63 := by
  rw [hf.count]
  omega

/-- The buffer after one more byte. -/
theorem Fed.bytes_feed {h : Vector Word 5} {known : Nat} {s : State} {p : List Byte} (hf : Fed h known s p) (b : Byte)
    {j : Nat} (hknown : known ≤ j) (hj : j < p.length + 1) (hlast : p.length < j + 64) :
    readBuf (feed b s) (j % 64) = (p ++ [b]).getD j 0 := by
  rw [readBuf_feed, hf.count]
  rcases Nat.lt_or_eq_of_le (Nat.le_of_lt_succ hj) with hlt | rfl
  · rw [if_neg (by omega), hf.bytes j hknown hlt (by omega), List.getD_append _ _ _ _ hlt]
  · rw [if_pos rfl]
    simp

/-- The block the core is given is the block of the sequence that the byte completes. -/
theorem Fed.bufferBlock {h : Vector Word 5} {known : Nat} {s : State} {p : List Byte} (hf : Fed h known s p) (b : Byte)
    (hfull : p.length % 64 = 63) : bufferBlock (storeByte b s) = blockOf (p ++ [b]) (p.length / 64) := by
  refine Vector.ext fun i hi => ?_
  have hknown := hf.known_le
  have hindex : (64 * (p.length / 64) + i) % 64 = i := by omega
  have hread := hf.bytes_feed b (j := 64 * (p.length / 64) + i) (by omega) (by omega) (by omega)
  rw [hindex, readBuf_feed] at hread
  rw [bufferBlock_getElem, blockOf_getElem, readBuf_storeByte, hread]

/-- One more byte fed. -/
theorem Fed.feed {h : Vector Word 5} {known : Nat} {s : State} {p : List Byte} (hf : Fed h known s p) (b : Byte) :
    Fed h known (feed b s) (p ++ [b]) := by
  have hlength : (p ++ [b]).length = p.length + 1 := List.length_append
  have hknown := hf.known_le
  refine ⟨by omega, ?_, ?_, fun j hj hjlt hlast => hf.bytes_feed b hj (by omega) (by omega), fun hblock => ?_⟩
  · rw [feed_count b hf.count_le, hf.count, hlength]
    omega
  · by_cases hfull : p.length % 64 = 63
    · have hblocks : (p ++ [b]).length / 64 = p.length / 64 + 1 := by omega
      rw [hblocks, chainFrom, chainFrom_append _ (by omega), ← hf.chain, ← hf.bufferBlock b hfull,
        feed_full_h b (hf.count.trans hfull), runBlock_h, storeByte_h]
    · have hblocks : (p ++ [b]).length / 64 = p.length / 64 := by omega
      have hcnt := hf.count
      rw [hblocks, chainFrom_append _ (by omega), ← hf.chain, feed_h_of_lt b (by omega)]
  · by_cases hfirst : p.length = 63
    · have hcnt : s.bufcnt.toNat = 63 := by rw [hf.count, hfirst]
      exact ⟨feed_full_phase b hcnt, feed_full_t b hcnt⟩
    · exact feed_idle b (hf.idle (by omega))

/-- A list of bytes fed. -/
theorem Fed.feedAll {h : Vector Word 5} {known : Nat} {s : State} {p : List Byte} (hf : Fed h known s p)
    (bytes : List Byte) : Fed h known (feedAll bytes s) (p ++ bytes) := by
  induction bytes generalizing s p with
  | nil => rwa [List.append_nil]
  | cons b bytes ih =>
    rw [feedAll_cons, List.append_cons]
    exact ih (hf.feed b)

/-- The bytes pending in the buffer. -/
def pendingBytes (s : State) : List Byte := (List.range s.bufcnt.toNat).map (readBuf s)

theorem pendingBytes_length (s : State) : (pendingBytes s).length = s.bufcnt.toNat := by
  rw [pendingBytes, List.length_map, List.length_range]

theorem pendingBytes_getD (s : State) {i : Nat} (hi : i < s.bufcnt.toNat) : (pendingBytes s).getD i 0 = readBuf s i := by
  simp [pendingBytes, List.getD_eq_getElem?_getD, hi]

/-- Every state has been fed its pending bytes from its own chaining value. -/
theorem fed_pendingBytes {s : State} (hcnt : s.bufcnt.toNat ≤ 63) : Fed s.h 0 s (pendingBytes s) := by
  have hlength := pendingBytes_length s
  have hblocks : (pendingBytes s).length / 64 = 0 := by omega
  refine ⟨Nat.zero_le _, by omega, by rw [hblocks]; rfl, fun j _ hj _ => ?_, by omega⟩
  rw [pendingBytes_getD s (by omega), Nat.mod_eq_of_lt (by omega)]

/-! FINAL over the pending bytes and their padding. -/

/-- What FINAL feeds after the pending bytes, with them. -/
def finalBytes (s : State) : List Byte := pendingBytes s ++ padseq s.bufcnt.toNat (lbits s.len)

theorem fed_feedPadding {s : State} (hcnt : s.bufcnt.toNat ≤ 63) : Fed s.h 0 (feedPadding s) (finalBytes s) := by
  rw [feedPadding_eq_feedAll_padseq hcnt]
  exact (fed_pendingBytes hcnt).feedAll _

theorem finalBytes_length {s : State} (hcnt : s.bufcnt.toNat ≤ 63) :
    (finalBytes s).length = if s.bufcnt.toNat ≤ 55 then 64 else 128 := by
  rw [finalBytes, List.length_append, pendingBytes_length, padseq_length hcnt]
  split <;> omega

/-- The marker, `z` zeros and the eight bytes of the bit length, in one list. -/
theorem padseq_getD (n : Nat) (bits : BitVec 64) {z i : Nat} (hz : (119 - n) % 64 = z) (hi : i < z + 9) :
    (padseq n bits).getD i 0 =
      if i = 0 then 0x80 else if i < z + 1 then 0x00 else byteOf bits 8 (i - (z + 1)) := by
  rw [padseq, hz]
  rcases i with _ | i
  · rfl
  rw [if_neg (Nat.succ_ne_zero i), List.append_assoc, List.singleton_append, List.getD_cons_succ]
  by_cases hzero : i < z
  · rw [if_pos (by omega), List.getD_append _ _ _ _ (by simpa using hzero), List.getD_replicate _ hzero]
  · rw [if_neg (by omega), List.getD_append_right _ _ _ _ (by simpa using hzero), List.length_replicate,
      Nat.add_sub_add_right, List.getD_eq_getElem _ _ (by simp; omega), List.getElem_map, List.getElem_range]

/-- The bytes of the padded block or blocks, `total` of them. -/
theorem finalBytes_getD {s : State} {total i : Nat} (hcnt : s.bufcnt.toNat ≤ 63)
    (htotal : (finalBytes s).length = total) (hi : i < total) : (finalBytes s).getD i 0 =
      if i < s.bufcnt.toNat then readBuf s i else if i = s.bufcnt.toNat then 0x80 else if i < total - 8 then 0x00
      else (s.len * 8).extractLsb' (8 * (total - 1 - i)) 8 := by
  have hpending := pendingBytes_length s
  rw [finalBytes_length hcnt] at htotal
  by_cases hlt : i < s.bufcnt.toNat
  · rw [if_pos hlt, finalBytes, List.getD_append _ _ _ _ (by omega), pendingBytes_getD s hlt]
  have hz : (119 - s.bufcnt.toNat) % 64 = total - 9 - s.bufcnt.toNat := by split at htotal <;> omega
  have hle : s.bufcnt.toNat + 9 ≤ total := by split at htotal <;> omega
  rw [if_neg hlt, finalBytes, List.getD_append_right _ _ _ _ (by omega), hpending, padseq_getD _ _ hz (by omega)]
  refine ite_congr (propext (by omega)) (fun _ => rfl) fun _ => ?_
  refine ite_congr (propext (by omega)) (fun _ => rfl) fun _ => ?_
  rw [byteOf, lbits]
  congr 2
  omega

/-- Cells outside the 64 of the buffer are not written. -/
theorem readBuf_feedPadding_above {s : State} (hcnt : s.bufcnt.toNat ≤ 63) {a : Nat} (ha : 64 ≤ a) :
    readBuf (feedPadding s) a = readBuf s a := by
  have hkept := feedPadding_keeps (fun t => t.bufcnt.toNat ≤ 63 ∧ readBuf t a = readBuf s a)
    (fun b t ht => ⟨feed_count_le b ht.1, by rw [readBuf_feed, if_neg (by omega), ht.2]⟩) ⟨hcnt, rfl⟩
  exact hkept.2

theorem readBuf_afterFinal (u : State) (a : Nat) : readBuf u.afterFinal a = readBuf u a :=
  readBuf_congr (afterFinal_buf u) (afterFinal_epoch u) a

/-- After FINAL the last block stays in the buffer. -/
theorem readBuf_feedPadding {s : State} {last : Nat} (hcnt : s.bufcnt.toNat ≤ 63)
    (hlength : (finalBytes s).length = 64 * (last + 1)) (a : Nat) :
    readBuf (feedPadding s) a = if h : a < 64 then (blockOf (finalBytes s) last)[a] else readBuf s a := by
  split_ifs with ha
  · have hread := (fed_feedPadding hcnt).bytes (64 * last + a) (Nat.zero_le _) (by omega) (by omega)
    have hindex : (64 * last + a) % 64 = a := by omega
    rw [blockOf_getElem, ← hread, hindex]
  · exact readBuf_feedPadding_above hcnt (Nat.le_of_not_lt ha)

theorem feedPadding_h {s : State} {last : Nat} (hcnt : s.bufcnt.toNat ≤ 63)
    (hlength : (finalBytes s).length = 64 * (last + 1)) :
    (feedPadding s).h = chainFrom s.h (finalBytes s) (last + 1) := by
  rw [(fed_feedPadding hcnt).chain, hlength, Nat.mul_div_cancel_left _ (by decide)]

/-- A block runs in every FINAL, so the sequencer ends idle from every position. -/
theorem feedPadding_idle_of_count {s : State} (hcnt : s.bufcnt.toNat ≤ 63) : (feedPadding s).Idle := by
  apply (fed_feedPadding hcnt).idle
  rw [finalBytes_length hcnt]
  split <;> decide

/-- What FINAL changes, for any state the feeder may leave. -/
theorem afterFinal_eq_update {s u : State} (hlen : u.len = s.len) (huerr : u.uerr = s.uerr) (hierr : u.ierr = s.ierr)
    (hinbox : u.inbox = s.inbox) (hepoch : u.epoch = s.epoch) (hcnt : u.bufcnt = 0) (hidle : u.Idle) :
    u.afterFinal = { s with h := u.afterFinal.h, buf := u.afterFinal.buf, bufcnt := 0, st := .finalized,
                            wk := u.afterFinal.wk, temp := u.afterFinal.temp, w := u.afterFinal.w, phase := .idle, t := 0,
                            rsp := some 0x0000 } := by
  obtain ⟨hphase, ht⟩ := hidle
  cases u
  cases hlen; cases huerr; cases hierr; cases hinbox; cases hepoch; cases hcnt; cases hphase; cases ht
  rfl

theorem feedPadding_afterFinal_eq_update {s : State} (hcnt : s.bufcnt.toNat ≤ 63) :
    (feedPadding s).afterFinal = { s with
      h := (feedPadding s).afterFinal.h, buf := (feedPadding s).afterFinal.buf, bufcnt := 0, st := .finalized,
      wk := (feedPadding s).afterFinal.wk, temp := (feedPadding s).afterFinal.temp, w := (feedPadding s).afterFinal.w,
      phase := .idle, t := 0, rsp := some 0x0000 } :=
  afterFinal_eq_update (feedPadding_len s) (feedPadding_uerr s) (feedPadding_ierr s) (feedPadding_inbox s)
    (feedPadding_epoch s) (feedPadding_bufcnt hcnt) (feedPadding_idle_of_count hcnt)

/-- Settles O27: the pending bytes and their padding make one block. -/
theorem finalOneBlock : Obligations.FinalOneBlock := by
  intro s hst h55
  have hcnt : s.bufcnt.toNat ≤ 63 := by omega
  have hlength : (finalBytes s).length = 64 * (0 + 1) := by rw [finalBytes_length hcnt, if_pos h55]
  refine ⟨_, blockOf (finalBytes s) 0, exec_final hst hcnt, fun i hi => ?_, ?_, fun a => ?_,
    feedPadding_afterFinal_eq_update hcnt⟩
  · rw [blockOf_getElem, Nat.mul_zero, Nat.zero_add, finalBytes_getD hcnt hlength hi]
  · rw [afterFinal_h, feedPadding_h hcnt hlength, chainFrom, chainFrom]
  · rw [readBuf_afterFinal, readBuf_feedPadding hcnt hlength]

/-- Settles O28: they make two blocks; the first 64 bytes hold the marker, the last 64 the length. -/
theorem finalTwoBlocks : Obligations.FinalTwoBlocks := by
  intro s hst h56 hcnt
  have hlength : (finalBytes s).length = 64 * (1 + 1) := by rw [finalBytes_length hcnt, if_neg (by omega)]
  refine ⟨_, blockOf (finalBytes s) 0, blockOf (finalBytes s) 1, exec_final hst hcnt, fun i hi => ?_, fun i hi => ?_, ?_,
    fun a => ?_, feedPadding_afterFinal_eq_update hcnt⟩
  · have hzeros : i < 64 * (1 + 1) - 8 := by omega
    rw [blockOf_getElem, Nat.mul_zero, Nat.zero_add, finalBytes_getD hcnt hlength (by omega), if_pos hzeros]
  · rw [blockOf_getElem, finalBytes_getD hcnt hlength (by omega), if_neg (by omega), if_neg (by omega)]
    refine ite_congr (propext (by omega)) (fun _ => rfl) fun _ => ?_
    have hbit : 64 * (1 + 1) - 1 - (64 * 1 + i) = 63 - i := by omega
    rw [hbit]
  · rw [afterFinal_h, feedPadding_h hcnt hlength, chainFrom, chainFrom, chainFrom]
  · rw [readBuf_afterFinal, readBuf_feedPadding hcnt hlength]

end Sys2Proof.Machine
end

section
/-! The message a context holds and its digest (10_state.md R34, 41_context_commands.md R131). -/

namespace Sys2Proof.Machine

theorem padded_length (m : List Byte) :
    (padded m).length = 64 * (m.length / 64 + (if m.length % 64 ≤ 55 then 1 else 2)) := by
  rw [padded, List.length_append, padseq_length (by omega)]
  split <;> omega

/-- Settles O31: the padding completes the last block, or one more. -/
theorem paddedBlockCount : Obligations.PaddedBlockCount := by
  intro m
  rw [padded_length m]
  exact ⟨Nat.mul_mod_right _ _, Nat.mul_div_cancel_left _ (by decide)⟩

/-- Settles O52: a new context has nothing pending. -/
theorem newContextHoldsEmptyMessage : Obligations.NewContextHoldsEmptyMessage :=
  ⟨⟨rfl, rfl, rfl, rfl, nofun, rfl, rfl⟩, fun s hs => ⟨freshContext s, rfl, rfl, rfl, rfl, rfl, nofun, hs⟩⟩

/-- A context that holds a message has been fed it, from the initial chaining value; its full blocks are out of the
buffer. -/
theorem Represents.fed {s : State} {m : List Byte} (h : Represents s m) :
    Fed Config.iv (64 * (m.length / 64)) s m := by
  obtain ⟨-, -, hcnt, hh, hbytes, hidle⟩ := h
  refine ⟨Nat.le_refl _, hcnt, hh.trans (chainOver_eq_chainFrom m _), fun j hj hlt _ => ?_, fun _ => hidle⟩
  have hindex : 64 * (m.length / 64) + j % 64 = j := by omega
  rw [hbytes (j % 64) (by omega), hindex]

theorem Represents.not_finalized {s : State} {m : List Byte} (h : Represents s m) : s.st ≠ .finalized := by
  rw [h.1]
  split <;> exact Lifecycle.noConfusion

/-- What it takes for a context to hold a message that is not empty. -/
theorem represents_of_fed {t : State} {m : List Byte} {known : Nat} (hm : m ≠ []) (hst : t.st = .accumulating)
    (hlen : t.len = BitVec.ofNat 64 m.length) (hfed : Fed Config.iv known t m) (hidle : t.Idle) : Represents t m := by
  refine ⟨by rw [hst, if_neg hm], hlen, hfed.count, by rw [hfed.chain, chainOver_eq_chainFrom], fun i hi => ?_, hidle⟩
  have hknown := hfed.known_le
  have hread := hfed.bytes (64 * (m.length / 64) + i) (by omega) (by omega) (by omega)
  have hindex : (64 * (m.length / 64) + i) % 64 = i := by omega
  rwa [hindex] at hread

/-- What the feeder leaves does not depend on the fields the command writes after it. -/
theorem Fed.congr {h : Vector Word 5} {known : Nat} {s t : State} {p : List Byte} (hf : Fed h known s p)
    (hh : t.h = s.h) (hcnt : t.bufcnt = s.bufcnt) (hbuf : t.buf = s.buf) (hepoch : t.epoch = s.epoch)
    (hphase : t.phase = s.phase) (ht : t.t = s.t) : Fed h known t p := by
  refine ⟨hf.known_le, hcnt ▸ hf.count, hh ▸ hf.chain, fun j hj hlt hlast => ?_, fun hblock => ?_⟩
  · rw [readBuf_congr hbuf hepoch, hf.bytes j hj hlt hlast]
  · rw [State.Idle, hphase, ht]
    exact hf.idle hblock

/-- Settles O53: the byte is fed, and counted. -/
theorem absorbExtendsMessage : Obligations.AbsorbExtendsMessage := by
  intro s m b h
  have hfed := h.fed
  obtain ⟨-, hlen, -, -, -, hidle⟩ := id h
  refine ⟨_, exec_absorb b h.not_finalized hfed.count_le, ?_⟩
  apply represents_of_fed (List.append_ne_nil_of_right_ne_nil m (List.cons_ne_nil b [])) (afterAbsorb_st _ _)
  · rw [afterAbsorb_len, hlen, List.length_append]
    exact (BitVec.ofNat_add _ _).symm
  · exact (hfed.feed b).congr (afterAbsorb_h _ _) (afterAbsorb_bufcnt _ _) (afterAbsorb_buf _ _)
      (afterAbsorb_epoch _ _) (afterAbsorb_phase _ _) (afterAbsorb_t _ _)
  · rw [State.Idle, afterAbsorb_phase, afterAbsorb_t]
    exact feed_idle b hidle

/-- FINAL feeds a context that holds `m` the padding of `m`. -/
theorem Represents.feedPadding_h {s : State} {m : List Byte} (h : Represents s m) :
    (feedPadding s).h = sha1Chain m := by
  have hfed := h.fed
  obtain ⟨-, hlen, hcnt, -⟩ := h
  have hbits : lbits s.len = BitVec.ofNat 64 (8 * m.length) := by
    apply BitVec.eq_of_toNat_eq
    rw [lbits_toNat, hlen, BitVec.toNat_ofNat, BitVec.toNat_ofNat]
    omega
  have hpadded : m ++ padseq s.bufcnt.toNat (lbits s.len) = padded m := by rw [hbits, hcnt, padded]
  rw [feedPadding_eq_feedAll_padseq hfed.count_le, (hfed.feedAll _).chain, hpadded, sha1Chain, chainOver_eq_chainFrom]

theorem Represents.digested {s : State} {m : List Byte} (h : Represents s m) :
    Digested (feedPadding s).afterFinal m := by
  have hcnt := h.fed.count_le
  obtain ⟨-, hlen, -⟩ := id h
  refine ⟨afterFinal_st _, ?_, ?_, ?_, ?_⟩
  · rw [afterFinal_len, feedPadding_len, hlen]
  · rw [afterFinal_bufcnt, feedPadding_bufcnt hcnt]
  · rw [afterFinal_h, h.feedPadding_h]
  · rw [State.Idle, afterFinal_phase, afterFinal_t]
    exact feedPadding_idle_of_count hcnt

/-- Settles O54: the padding of the count and the length is the padding of the message. -/
theorem finalDigestsMessage : Obligations.FinalDigestsMessage := fun _ _ _ h =>
  ⟨_, exec_final h.not_finalized h.fed.count_le, h.digested⟩

end Sys2Proof.Machine
end

section
/-! The driver (30_encoding.md R77, R78; log 16): what a run of its words gathers and leaves. -/

namespace Sys2Proof.Machine

/-- Settles O56: the words of an update are read byte by byte. -/
theorem updateIgnoresChunking : Obligations.UpdateIgnoresChunking := by
  intro chunks
  unfold updateWords
  exact List.map_flatten.symm

/-- The state in which a handshake of an idle machine runs its word: the word gone from the port, no response waiting. -/
def State.portsEmpty (s : State) : State := { s with inbox := [], rsp := none }

/-! One word of the driver, by what the machine answers. -/

theorem readByte_rspWord (op : BitVec 4) (imm8 : Byte) (status : RspStatus) (data : Byte) :
    readByte (cmdWord op imm8) (rspWord status data) = if op = 0x4 ∨ op = 0x5 then [data] else [] := by
  rw [readByte, cmdOp_cmdWord, rspWord_data]

/-- The driver goes on past an OK answer, with the byte it reads. -/
theorem drive_cons_ok {op : BitVec 4} {imm8 data : Byte} {i : Instr} {s t : State} (hs : s.Idle)
    (hw : decodeCmd16 (cmdWord op imm8) = .ok i) (hexec : exec i s.portsEmpty = .next t)
    (hrsp : t.rsp = some (rspWord .ok data)) (rest : List (BitVec 16)) (got : List Byte) :
    drive (cmdWord op imm8 :: rest) got s =
      drive rest (got ++ if op = 0x4 ∨ op = 0x5 then [data] else []) t := by
  rw [drive_ok rest got ((issue_legal hs hw).trans hexec) hrsp (rspWord_status .ok data), readByte_rspWord]

/-- INIT gathers nothing and leaves a new context. -/
theorem drive_init {s : State} (hs : s.Idle) (rest : List (BitVec 16)) (got : List Byte) :
    drive (cmdWord 0x1 0 :: rest) got s = drive rest got (freshContext s.portsEmpty) := by
  rw [drive_cons_ok (data := 0) hs (i := .init) (t := freshContext s.portsEmpty) rfl rfl rfl, if_neg (by decide),
    List.append_nil]

/-- FINAL outside Finalized gathers nothing. -/
theorem drive_final {s : State} (hs : s.Idle) (hst : s.st ≠ .finalized) (hcnt : s.bufcnt.toNat ≤ 63)
    (rest : List (BitVec 16)) (got : List Byte) :
    drive (cmdWord 0x3 0 :: rest) got s =
      drive rest got (feedPadding s.portsEmpty).afterFinal := by
  rw [drive_cons_ok hs (i := .final) rfl (exec_final hst hcnt) (afterFinal_rsp _), if_neg (by decide), List.append_nil]

/-- The ports do not bear on which message a context holds. -/
theorem Represents.portsEmpty {s : State} {m : List Byte} (h : Represents s m) :
    Represents s.portsEmpty m := h

theorem absorb_represents (b : Byte) {s : State} {m : List Byte} (h : Represents s m) :
    Represents ((feed b s).afterAbsorb (s.len + 1)) (m ++ [b]) := by
  obtain ⟨t, hexec, ht⟩ := absorbExtendsMessage s m b h
  rw [exec_absorb b h.not_finalized h.fed.count_le] at hexec
  cases hexec
  exact ht

/-- An update over a context that holds `m` gathers nothing and leaves one that holds `m` and the update. -/
theorem drive_update (d : List Byte) (got : List Byte) {s : State} {m : List Byte} (h : Represents s m) :
    ∃ t, drive (updateWords d) got s = (t, .data got) ∧ Represents t (m ++ d) := by
  induction d generalizing s m with
  | nil => exact ⟨s, rfl, by rwa [List.append_nil]⟩
  | cons b d ih =>
    obtain ⟨t, hdrive, ht⟩ := ih (absorb_represents b h.portsEmpty)
    obtain ⟨-, -, -, -, -, hidle⟩ := id h
    refine ⟨t, ?_, by rwa [List.append_cons]⟩
    rw [← hdrive, updateWords, List.map_cons,
      drive_cons_ok hidle (decodeCmd16_absorb b) (exec_absorb b h.portsEmpty.not_finalized h.portsEmpty.fed.count_le)
        (afterAbsorb_rsp _ _), if_neg (by decide), List.append_nil]
    rfl

/-! The read-out. -/

/-- The state after the driver has read digest byte `i`. -/
def readOut (s : State) (i : Nat) : State := respond .ok (digestByte s.h i) s.portsEmpty

/-- RDD in Finalized gathers the digest byte. -/
theorem drive_rdd {s : State} (hs : s.Idle) (hst : s.st = .finalized) {i : Nat} (hi : i ≤ 19) (rest : List (BitVec 16))
    (got : List Byte) :
    drive (cmdWord 0x4 (BitVec.ofNat 8 i) :: rest) got s = drive rest (got ++ [digestByte s.h i]) (readOut s i) := by
  have hindex : (BitVec.ofNat 8 i).toNat = i := by
    rw [BitVec.toNat_ofNat]
    omega
  have hle : (BitVec.ofNat 8 i).toNat ≤ 19 := by omega
  have hexec : exec (.rdd (BitVec.ofNat 8 i)) s.portsEmpty = .next (readOut s i) := by
    have hread := execRdd_finalized (s := s.portsEmpty) hle hst
    rw [hindex] at hread
    exact hread
  rw [drive_cons_ok hs (decodeCmd16_rdd hle) hexec rfl, if_pos (by decide)]

/-- Any list of digest bytes is gathered in its order, the last response left at the port. -/
theorem drive_rdds (is : List Nat) (last : Nat) (his : ∀ i ∈ is, i ≤ 19) (hlast : last ≤ 19) (got : List Byte) {s : State}
    (hs : s.Idle) (hst : s.st = .finalized) :
    drive ((is ++ [last]).map fun i => cmdWord 0x4 (BitVec.ofNat 8 i)) got s =
      (readOut s last, .data (got ++ (is ++ [last]).map (digestByte s.h))) := by
  induction is generalizing got s with
  | nil => exact drive_rdd hs hst hlast [] got
  | cons i is ih =>
    obtain ⟨hi, hrest⟩ := List.forall_mem_cons.mp his
    have hnext := ih hrest (got ++ [digestByte s.h i]) (s := readOut s i) hs hst
    rw [List.cons_append, List.map_cons, drive_rdd hs hst hi, hnext, List.map_cons, List.append_assoc,
      List.singleton_append]
    rfl

/-- The twenty RDDs of FINALIZE. -/
theorem drive_readDigest (got : List Byte) {s : State} (hs : s.Idle) (hst : s.st = .finalized) :
    drive ((List.range 20).map fun i => cmdWord 0x4 (BitVec.ofNat 8 i)) got s =
      (readOut s 19, .data (got ++ (List.range 20).map (digestByte s.h))) := by
  rw [List.range_succ]
  exact drive_rdds (List.range 19) 19 (fun i hi => Nat.le_of_lt (List.mem_range.mp hi)) (Nat.le_refl 19) got hs hst

/-- FINALIZE outside Finalized: FINAL, then the twenty bytes. -/
theorem drive_finalize (got : List Byte) {s : State} (hs : s.Idle) (hst : s.st ≠ .finalized)
    (hcnt : s.bufcnt.toNat ≤ 63) :
    drive finalizeWords got s =
      (readOut (feedPadding s.portsEmpty).afterFinal 19,
        .data (got ++ (List.range 20).map (digestByte (feedPadding s.portsEmpty).afterFinal.h))) := by
  have hidle : (feedPadding s.portsEmpty).afterFinal.Idle := by
    rw [State.Idle, afterFinal_phase, afterFinal_t]
    exact feedPadding_idle hs
  rw [finalizeWords, drive_final hs hst hcnt, drive_readDigest got hidle (afterFinal_st _)]

theorem Digested.readOut {s : State} {m : List Byte} (h : Digested s m) (i : Nat) : Digested (readOut s i) m := h

/-- Reading the last byte of a state whose command port is empty writes its response alone. -/
theorem readOut_eq_update {u : State} (hin : u.inbox = []) (i : Nat) :
    readOut u i = { u with rsp := some ((digestByte u.h i).setWidth 16) } := by
  rw [readOut, State.portsEmpty, ← hin, respond, rspWord_ok_eq_setWidth]

/-- Settles O58: outside Finalized by the run of FINAL and the RDDs; in Finalized the driver stops at FINAL. -/
theorem finalizeReturnsDigestBytes : Obligations.FinalizeReturnsDigestBytes := by
  refine ⟨fun s hs hst hcnt => ?_, fun s hs hst => ?_⟩
  · refine ⟨_, exec_final (s := s.portsEmpty) hst hcnt, afterFinal_st _, ?_⟩
    have hin : (feedPadding s.portsEmpty).afterFinal.inbox = [] := by
      rw [afterFinal_inbox, feedPadding_inbox, State.portsEmpty]
    rw [driveFinalize, drive_finalize [] hs hst hcnt, readOut_eq_update hin, List.nil_append]
  · have hissue : issue (cmdWord 0x3 0) s = .next (raise .usageError s.portsEmpty) :=
      (issue_legal (i := .final) hs rfl).trans (execFinal_finalized hst)
    exact drive_stop _ [] hissue rfl (by decide)

/-- Settles O55: INIT, the update and FINALIZE, from the empty message to the digest. -/
theorem digestOfEveryMessage : Obligations.DigestOfEveryMessage := by
  intro s m _ hs
  have hempty : Represents (freshContext s.portsEmpty) [] := by
    obtain ⟨t, hexec, ht⟩ := newContextHoldsEmptyMessage.2 s.portsEmpty hs
    cases hexec
    exact ht
  obtain ⟨u, hupdate, hu⟩ := drive_update m [] hempty
  rw [List.nil_append] at hu
  have hfinal := hu.portsEmpty.digested
  obtain ⟨-, -, -, hdigest, -⟩ := id hfinal
  obtain ⟨-, -, -, -, -, hidle⟩ := id hu
  refine ⟨readOut (feedPadding u.portsEmpty).afterFinal 19, ?_, by rw [sha1, List.length_map, List.length_range],
    hfinal.readOut 19⟩
  rw [driveDigest, digestWords, drive_init hs, drive_append _ hupdate,
    drive_finalize [] hidle hu.not_finalized hu.fed.count_le, List.nil_append, hdigest, sha1]

/-! The update with no byte. -/

/-- The low bits of STATUS are the lifecycle state. -/
theorem statusByte_st (s : State) : (statusByte s).extractLsb' 0 2 = s.st.code := BitVec.extractLsb'_append_eq_right

theorem code_eq_finalized_iff (st : Lifecycle) : st.code = Lifecycle.finalized.code ↔ st = .finalized := by
  cases st <;> decide

/-- Settles O59: the checking driver reads STATUS, which says whether the context is finalized. -/
theorem emptyUpdate : Obligations.EmptyUpdate := by
  refine ⟨drive_nil [], fun s hs => ?_⟩
  have hexec : exec (.rds StatusName.status.selector) s.portsEmpty =
      .next (respond .ok (statusByte s) s.portsEmpty) := rfl
  have hdrive : drive [cmdWord 0x5 StatusName.status.selector] [] s =
      (respond .ok (statusByte s) s.portsEmpty, .data [statusByte s]) := by
    rw [drive_cons_ok hs (decodeCmd16_rds (by decide)) hexec rfl, if_pos (by decide)]
    rfl
  simp only [driveUpdate, hdrive, statusByte_st, code_eq_finalized_iff]
  split_ifs
  · exact ⟨_, _, rfl, rfl, rfl⟩
  · exact ⟨_, _, rfl, rfl, rfl⟩

end Sys2Proof.Machine
end

section
/-! What no command reads before it writes is never seen (10_state.md R33): two states of one context stay so. -/

namespace Sys2Proof.Machine

theorem SameContext.bytes {s s' : State} (h : SameContext s s') {i : Nat} (hi : i < s.bufcnt.toNat) :
    readBuf s i = readBuf s' i := by
  obtain ⟨-, -, -, -, -, -, hbytes⟩ := h
  exact hbytes i hi

/-- The byte is stored after the same pending bytes. -/
theorem SameContext.readBuf_storeByte {s s' : State} (h : SameContext s s') (b : Byte) {i : Nat}
    (hi : i < s.bufcnt.toNat + 1) : readBuf (storeByte b s) i = readBuf (storeByte b s') i := by
  obtain ⟨-, hcnt, -⟩ := id h
  rw [Sys2Proof.Machine.readBuf_storeByte, Sys2Proof.Machine.readBuf_storeByte, ← hcnt]
  split_ifs with hat
  · rfl
  · exact h.bytes (by omega)

/-- The core is given the same block. -/
theorem SameContext.bufferBlock {s s' : State} (h : SameContext s s') (b : Byte) (hcnt : s.bufcnt.toNat = 63) :
    bufferBlock (storeByte b s) = bufferBlock (storeByte b s') := by
  refine Vector.ext fun i hi => ?_
  rw [bufferBlock_getElem, bufferBlock_getElem]
  exact h.readBuf_storeByte b (by omega)

theorem SameContext.feed {s s' : State} (h : SameContext s s') (hcnt : s.bufcnt.toNat ≤ 63) (b : Byte) :
    SameContext (feed b s) (feed b s') := by
  obtain ⟨hh, hcount, hlen, hst, huerr, hierr, -⟩ := id h
  have hcnt' : s'.bufcnt.toNat ≤ 63 := hcount ▸ hcnt
  have hnewcount : (Sys2Proof.Machine.feed b s).bufcnt = (Sys2Proof.Machine.feed b s').bufcnt := by
    apply BitVec.eq_of_toNat_eq
    rw [feed_count b hcnt, feed_count b hcnt', hcount]
  have hchain : (Sys2Proof.Machine.feed b s).h = (Sys2Proof.Machine.feed b s').h := by
    rcases Nat.lt_or_eq_of_le hcnt with hlt | hfull
    · rw [feed_h_of_lt b hlt, feed_h_of_lt b (hcount ▸ hlt), hh]
    · rw [feed_full_h b hfull, feed_full_h b (hcount ▸ hfull), runBlock_h, runBlock_h, h.bufferBlock b hfull, storeByte_h,
        storeByte_h, hh]
  refine ⟨hchain, hnewcount, by simpa using hlen, by simpa using hst, by simpa using huerr, by simpa using hierr, ?_⟩
  intro i hi
  rw [feed_count b hcnt] at hi
  rw [readBuf_feed, readBuf_feed, ← Sys2Proof.Machine.readBuf_storeByte, ← Sys2Proof.Machine.readBuf_storeByte]
  exact h.readBuf_storeByte b (by omega)

theorem SameContext.feedAll {s s' : State} (h : SameContext s s') (hcnt : s.bufcnt.toNat ≤ 63) (bytes : List Byte) :
    SameContext (feedAll bytes s) (feedAll bytes s') := by
  induction bytes generalizing s s' with
  | nil => exact h
  | cons b bytes ih => exact ih (h.feed hcnt b) (feed_count_le b hcnt)

theorem SameContext.feedPadding {s s' : State} (h : SameContext s s') (hcnt : s.bufcnt.toNat ≤ 63) :
    SameContext (feedPadding s) (feedPadding s') := by
  obtain ⟨-, hcount, hlen, -⟩ := id h
  rw [feedPadding_eq_feedAll_padseq hcnt, feedPadding_eq_feedAll_padseq (hcount ▸ hcnt), ← hcount, ← hlen]
  exact h.feedAll hcnt _

/-! The same update of the fields a command writes at its end. -/

theorem SameContext.respond {s s' : State} (h : SameContext s s') (status : RspStatus) (data : Byte) :
    SameContext (respond status data s) (respond status data s') := h

theorem SameContext.raise {s s' : State} (h : SameContext s s') (cause : Cause) :
    SameContext (raise cause s) (raise cause s') := by
  obtain ⟨hh, hcnt, hlen, hst, huerr, hierr, hbytes⟩ := h
  cases cause with
  | usageError => exact ⟨hh, hcnt, hlen, hst, rfl, hierr, hbytes⟩
  | illegalCommand => exact ⟨hh, hcnt, hlen, hst, huerr, rfl, hbytes⟩

theorem SameContext.freshContext (s s' : State) : SameContext (freshContext s) (freshContext s') :=
  ⟨rfl, rfl, rfl, rfl, rfl, rfl, nofun⟩

theorem SameContext.afterAbsorb {u u' : State} (h : SameContext u u') (len : BitVec 64) :
    SameContext (u.afterAbsorb len) (u'.afterAbsorb len) := by
  obtain ⟨hh, hcnt, -, -, huerr, hierr, hbytes⟩ := h
  exact ⟨hh, hcnt, rfl, rfl, huerr, hierr, hbytes⟩

theorem SameContext.afterFinal {u u' : State} (h : SameContext u u') : SameContext u.afterFinal u'.afterFinal := by
  obtain ⟨hh, hcnt, hlen, -, huerr, hierr, hbytes⟩ := h
  exact ⟨hh, hcnt, hlen, rfl, huerr, hierr, hbytes⟩

theorem SameContext.statusAt {s s' : State} (h : SameContext s s') (sel : Nat) : statusAt s sel = statusAt s' sel := by
  obtain ⟨-, hcnt, hlen, hst, huerr, hierr, -⟩ := h
  unfold Sys2Proof.Machine.statusAt statusByte
  rw [hcnt, hlen, hst, huerr, hierr]

/-- Two states of one context answer an instruction alike and stay one context. -/
def AnswerAlike (i : Instr) (s s' : State) : Prop :=
  ∃ t t', exec i s = .next t ∧ exec i s' = .next t' ∧ SameContext t t' ∧ t.rsp = t'.rsp

section
variable {s s' : State} (h : SameContext s s')
include h

theorem answerAlike_absorb (hcnt : s.bufcnt.toNat ≤ 63) (b : Byte) : AnswerAlike (.absorb b) s s' := by
  obtain ⟨-, hcount, hlen, hst, -⟩ := id h
  by_cases hfin : s.st = .finalized
  · exact ⟨_, _, execAbsorb_finalized b hfin, execAbsorb_finalized b (hst ▸ hfin), h.raise _, rfl⟩
  · refine ⟨_, _, exec_absorb b hfin hcnt, exec_absorb b (hst ▸ hfin) (hcount ▸ hcnt), ?_,
      (afterAbsorb_rsp _ _).trans (afterAbsorb_rsp _ _).symm⟩
    rw [← hlen]
    exact (h.feed hcnt b).afterAbsorb _

theorem answerAlike_final (hcnt : s.bufcnt.toNat ≤ 63) : AnswerAlike .final s s' := by
  obtain ⟨-, hcount, -, hst, -⟩ := id h
  by_cases hfin : s.st = .finalized
  · exact ⟨_, _, execFinal_finalized hfin, execFinal_finalized (hst ▸ hfin), h.raise _, rfl⟩
  · exact ⟨_, _, exec_final hfin hcnt, exec_final (hst ▸ hfin) (hcount ▸ hcnt), (h.feedPadding hcnt).afterFinal,
      (afterFinal_rsp _).trans (afterFinal_rsp _).symm⟩

theorem answerAlike_rdd {k : Byte} (hk : k.toNat ≤ 19) : AnswerAlike (.rdd k) s s' := by
  obtain ⟨hh, -, -, hst, -⟩ := id h
  by_cases hfin : s.st = .finalized
  · refine ⟨_, _, execRdd_finalized hk hfin, execRdd_finalized hk (hst ▸ hfin), h.respond _ _, ?_⟩
    rw [respond_rsp, respond_rsp, hh]
  · exact ⟨_, _, execRdd_not_finalized hk hfin, execRdd_not_finalized hk (hst ▸ hfin), h.raise _, rfl⟩

theorem answerAlike_rds {sel : Byte} (hsel : sel.toNat ≤ 9) : AnswerAlike (.rds sel) s s' := by
  refine ⟨_, _, execRds_legal hsel s, execRds_legal hsel s', h.respond _ _, ?_⟩
  rw [respond_rsp, respond_rsp, h.statusAt]

end

/-- Settles O57: an illegal word raises the same exception; the five commands one by one. -/
theorem scratchIsNeverSeen : Obligations.ScratchIsNeverSeen := by
  intro w s s' h hcnt
  rcases hdec : decodeCmd16 w with e | i
  · have hw := refused_iff_error.mpr ⟨e, hdec⟩
    exact ⟨_, _, runWord_refused hw s, runWord_refused hw s', h.raise _, rfl⟩
  rw [runWord_legal hdec, runWord_legal hdec]
  rcases (decodeCmd16_eq_ok_iff w i).mp hdec with
    ⟨_, rfl⟩ | ⟨b, _, rfl⟩ | ⟨_, rfl⟩ | ⟨k, hk, _, rfl⟩ | ⟨k, hk, _, rfl⟩
  · exact ⟨_, _, rfl, rfl, .freshContext s s', rfl⟩
  · exact answerAlike_absorb h hcnt b
  · exact answerAlike_final h hcnt
  · exact answerAlike_rdd h hk
  · exact answerAlike_rds h hk

end Sys2Proof.Machine
end
